-- ==== Sys2Proof/Word.lean ====
section
/-! DEFINITION. The word types of the block (`00_scope.md` R6, R7): bytes, 16-bit bus addresses and words.
All values are unsigned; bit 0 is the least significant bit. -/

namespace Sys2Proof

/-- `DATA_W` = 8: the width of a byte access (R6). -/
abbrev Byte := BitVec 8

/-- `ADDR_W` = 16: a bus address; the address space is exactly `[0, 0x10000)` (R6). -/
abbrev Addr := BitVec 16

/-- `WORD_W` = 16: the width of a word access (R6). -/
abbrev Word := BitVec 16

end Sys2Proof
end

