-- ==== Sys2Proof/Config.lean ====
section
/-! DEFINITION. What an implementation fixes, and the free values: the names of the stores, the parameters of
`00_scope.md` R6 that are marked *parameter*, and the two families of bytes the spec leaves arbitrary (INIT, R34; the
proxy's answers, R208). The capacities are in `Sys2Proof.Machine.cap`. -/

namespace Sys2Proof

/-- The five Backing Stores (`10_state.md` R23). -/
inductive Store where
  | ram   -- system RAM
  | iow   -- audio/IO register window
  | exp   -- expansion/save-RAM region
  | prgl  -- lower program bank
  | prgu  -- upper program bank
  deriving DecidableEq, Repr

/-- What the proxy sees, one event for each access handed to it (`43_store_and_proxy.md` R206, R207). The address is
the proxy address `0x2000 + r`, not the bus address (R205). -/
inductive ProxyEvent where
  | rd (p : Addr)
  | wr (p : Addr) (v : Byte)
  deriving DecidableEq, Repr

/-- Four identification bytes, `H[0]` first. -/
structure IdTag where
  b0 : Byte
  b1 : Byte
  b2 : Byte
  b3 : Byte
  deriving DecidableEq, Repr

/-- The open parameters of R6 but INIT. Constant over a run; held in State as plain data so that a statement about
every state is a statement about every value of them. DESIGN CHOICE, safe: log entry 4. -/
structure Params where
  /-- MAGIC (R6, R112; decision D4). The default is the spec's, from general knowledge (G1). -/
  magic : IdTag := ⟨0x4E#8, 0x45#8, 0x53#8, 0x1A#8⟩
  /-- TRACE: whether the trace output exists (R6, R210; decision D25). Default absent. -/
  trace : Bool := false
  /-- PRG_UNIT: bytes per count of the program ROM size, for the host only (R6, R267; decision D24). -/
  prgUnit : Nat := 16384
  /-- CHR_UNIT: bytes per count of the graphics ROM size, for the host only. -/
  chrUnit : Nat := 8192
  deriving DecidableEq, Repr

/-- INIT (R6, R34; decision D13): the byte a cell holds after power-on until it is written, one arbitrary byte per
cell and power-on. A FREE VALUE: log entry 2. -/
opaque Config.initByte (session : Nat) (S : Store) (o : Nat) : Byte

/-- The byte the graphics unit answers to a proxy read (R206, R208; decision D21), under no law. `draw` counts the
reads, `history` is everything the proxy has seen before this read. A FREE VALUE: log entry 3. -/
opaque Config.proxyAnswer (draw : Nat) (history : List ProxyEvent) (p : Addr) : Byte

end Sys2Proof
end

