-- ==== Sys2Proof/Syntax.lean ====
section
/-! DEFINITION. The instruction syntax: one constructor of `Instr` for each of the 43 rows of
`spec/opcode_table.json`, in the table's order, and the transaction that carries an instruction's bits together with
the signals presented beside them. -/

namespace Sys2Proof

/-- The direction signal of a byte access, and the byte on the data lines when it is a write. It is a port signal, not
an address bit (`30_encoding.md` R94). -/
inductive Access where
  | read
  | write (v : Byte)
  deriving DecidableEq, Repr

/-- The instructions. The first six are the operations of `CMD36` (R89). The `win` constructors are the window rows of
`A16` (R86): a byte access at an address of the row, its address bits split as the row splits them, ignored mirror bits
kept. `pxRd` and `pxWr` are the rows of `PXA16` (R87), with the 16-bit address handed to the proxy. The `hdr`
constructors are the rows of `HDR8` (R81): one header byte split into its fields, ignored bits dropped. `hdrB8` to `hdrB15`
are bytes of an extended header, as their rows say ("extended only"), but for `hdrB13Ign`, the byte of which every bit is
ignored: byte 13 with a console type that selects no sub-type, and bytes 8 to 15 of a legacy header (R84). -/
inductive Instr where
  | rdb (a : Addr)
  | wrb (a : Addr) (v : Byte)
  | rdw (a : Addr)
  | wrw (a : Addr) (w : Word)
  | install (bytes : List Byte)
  | hdrdec (input : List Byte)
  | winRam (acc : Access) (mirror : BitVec 2) (offset : BitVec 11)
  | winPpu (acc : Access) (mirror : BitVec 10) (reg : BitVec 3)
  | winIow (acc : Access) (offset : BitVec 5)
  | winExp1 (acc : Access) (low : BitVec 5)
  | winExp2 (acc : Access) (low : BitVec 6)
  | winExp3 (acc : Access) (low : BitVec 7)
  | winExp4 (acc : Access) (low : BitVec 8)
  | winExp5 (acc : Access) (low : BitVec 9)
  | winExp6 (acc : Access) (low : BitVec 10)
  | winExp7 (acc : Access) (low : BitVec 11)
  | winExp8 (acc : Access) (low : BitVec 12)
  | winExp9 (acc : Access) (low : BitVec 13)
  | winPrgl (acc : Access) (offset : BitVec 14)
  | winPrgu (acc : Access) (offset : BitVec 14)
  | pxRd (p : Addr)
  | pxWr (p : Addr) (v : Byte)
  | hdrB0 (b : Byte)
  | hdrB1 (b : Byte)
  | hdrB2 (b : Byte)
  | hdrB3 (b : Byte)
  | hdrB4 (prgRomLsb : Byte)
  | hdrB5 (chrRomLsb : Byte)
  | hdrB6 (mapperLo : BitVec 4) (fourScreen trainer battery vertical : Bool)
  | hdrB7Ext (mapperMid : BitVec 4) (console : BitVec 2)
  | hdrB7Leg00 (mapperMid : BitVec 4) (flags : BitVec 2)
  | hdrB7Leg01 (mapperMid : BitVec 4) (flags : BitVec 2)
  | hdrB7Leg11 (mapperMid : BitVec 4) (flags : BitVec 2)
  | hdrB8 (submapper mapperHi : BitVec 4)
  | hdrB9 (chrRomMsb prgRomMsb : BitVec 4)
  | hdrB10 (prgNvramShift prgRamShift : BitVec 4)
  | hdrB11 (chrNvramShift chrRamShift : BitVec 4)
  | hdrB12 (timing : BitVec 2)
  | hdrB13Vs (vsHwType vsPpuType : BitVec 4)
  | hdrB13Extcon (extConsoleType : BitVec 4)
  | hdrB13Ign
  | hdrB14 (miscRoms : BitVec 2)
  | hdrB15 (expansionDevice : BitVec 6)
  deriving DecidableEq, Repr

/-- One transaction on a port of the block (`00_scope.md` R8): an instruction's bits in one of the four formats of the
opcode table, and what is presented beside them. -/
inductive Txn where
  /-- Format `CMD36` (R88), with the byte-sequence operand of `INSTALL` and `HDRDEC` beside the word. -/
  | cmd (word : BitVec 36) (bytes : List Byte)
  /-- Format `A16` (R85): a byte access on the bus, with its direction signal. -/
  | bus (a : Addr) (acc : Access)
  /-- Format `PXA16` (R87): an address handed to the proxy, with its direction signal. -/
  | proxy (p : Addr) (acc : Access)
  /-- Format `HDR8` (R81): byte `index` of a header, with that header's byte 7, which selects how bytes 8 to 15 are
  read (R82). -/
  | header (index : Fin 16) (h7 : Byte) (b : Byte)
  deriving DecidableEq, Repr

/-- Why bits are no instruction. -/
inductive DecodeError where
  /-- Codes `0x6` to `0xF` select no operation (`30_encoding.md` R90). -/
  | reservedOpcode (op : BitVec 4)
  deriving DecidableEq, Repr

end Sys2Proof
end

