-- ==== Sys2Proof/WellFormed.lean ====
section
/-! DEFINITION. Well-formed instructions: those whose bits match their row of `spec/opcode_table.json`. The types of
`Instr` already hold every other field to its width; what is left to check is the fixed bits that the row does not turn
into fields: the upper thirteen bits of a proxy address (R87) and the four identification bytes (R81). -/

namespace Sys2Proof

/-- The address has the form `0010 0000 0000 0rrr` (`30_encoding.md` R87). -/
def isProxyAddr (p : Addr) : Bool :=
  p &&& 0xFFF8#16 == 0x2000#16

/-- The instruction's bits match its row of the opcode table. -/
def WellFormed : Instr → Bool
  | .rdb _ | .wrb _ _ | .rdw _ | .wrw _ _ | .install _ | .hdrdec _ => true
  | .winRam _ _ _ | .winPpu _ _ _ | .winIow _ _ => true
  | .winExp1 _ _ | .winExp2 _ _ | .winExp3 _ _ | .winExp4 _ _ | .winExp5 _ _ => true
  | .winExp6 _ _ | .winExp7 _ _ | .winExp8 _ _ | .winExp9 _ _ => true
  | .winPrgl _ _ | .winPrgu _ _ => true
  | .pxRd p | .pxWr p _ => isProxyAddr p
  | .hdrB0 b => b == 0x4E#8
  | .hdrB1 b => b == 0x45#8
  | .hdrB2 b => b == 0x53#8
  | .hdrB3 b => b == 0x1A#8
  | .hdrB4 _ | .hdrB5 _ | .hdrB6 _ _ _ _ _ => true
  | .hdrB7Ext _ _ | .hdrB7Leg00 _ _ | .hdrB7Leg01 _ _ | .hdrB7Leg11 _ _ => true
  | .hdrB8 _ _ | .hdrB9 _ _ | .hdrB10 _ _ | .hdrB11 _ _ | .hdrB12 _ => true
  | .hdrB13Vs _ _ | .hdrB13Extcon _ | .hdrB13Ign | .hdrB14 _ | .hdrB15 _ => true

end Sys2Proof
end

