-- ==== Sys2Proof/Decode.lean ====
section
/-! DEFINITION. The decoder, total on every transaction, and after it the encoder, both from the encodings of
`30_encoding.md`. -/

namespace Sys2Proof

/-- Format `CMD36`: `op[35:32]`, `addr[31:16]`, `data[15:0]`, codes of R89; reserved codes refused (R90). The
byte-sequence operand stands beside the word. -/
def decodeCmd (word : BitVec 36) (bytes : List Byte) : Except DecodeError Instr :=
  let op := word.extractLsb' 32 4
  let addr := word.extractLsb' 16 16
  if op = 0x0#4 then .ok (.rdb addr)
  else if op = 0x1#4 then .ok (.wrb addr (word.extractLsb' 0 8))
  else if op = 0x2#4 then .ok (.rdw addr)
  else if op = 0x3#4 then .ok (.wrw addr (word.extractLsb' 0 16))
  else if op = 0x4#4 then .ok (.install bytes)
  else if op = 0x5#4 then .ok (.hdrdec bytes)
  else .error (.reservedOpcode op)

/-- Format `A16`: the fourteen match and mask rows of R86, which do not overlap and leave no address out. -/
def decodeBus (a : Addr) (acc : Access) : Instr :=
  if a &&& 0xE000#16 = 0x0000#16 then .winRam acc (a.extractLsb' 11 2) (a.extractLsb' 0 11)
  else if a &&& 0xE000#16 = 0x2000#16 then .winPpu acc (a.extractLsb' 3 10) (a.extractLsb' 0 3)
  else if a &&& 0xFFE0#16 = 0x4000#16 then .winIow acc (a.extractLsb' 0 5)
  else if a &&& 0xFFE0#16 = 0x4020#16 then .winExp1 acc (a.extractLsb' 0 5)
  else if a &&& 0xFFC0#16 = 0x4040#16 then .winExp2 acc (a.extractLsb' 0 6)
  else if a &&& 0xFF80#16 = 0x4080#16 then .winExp3 acc (a.extractLsb' 0 7)
  else if a &&& 0xFF00#16 = 0x4100#16 then .winExp4 acc (a.extractLsb' 0 8)
  else if a &&& 0xFE00#16 = 0x4200#16 then .winExp5 acc (a.extractLsb' 0 9)
  else if a &&& 0xFC00#16 = 0x4400#16 then .winExp6 acc (a.extractLsb' 0 10)
  else if a &&& 0xF800#16 = 0x4800#16 then .winExp7 acc (a.extractLsb' 0 11)
  else if a &&& 0xF000#16 = 0x5000#16 then .winExp8 acc (a.extractLsb' 0 12)
  else if a &&& 0xE000#16 = 0x6000#16 then .winExp9 acc (a.extractLsb' 0 13)
  else if a &&& 0xC000#16 = 0x8000#16 then .winPrgl acc (a.extractLsb' 0 14)
  else .winPrgu acc (a.extractLsb' 0 14)

/-- Format `PXA16`: the direction signal chooses the row (R94). An address outside `[0x2000, 0x2008)` is decoded too:
the proxy's own range check is part of the primitive (R206, R209). -/
def decodeProxy (p : Addr) : Access → Instr
  | .read => .pxRd p
  | .write v => .pxWr p v

/-- The version field `H[7][3:2]` equals `0b10` (R82, `40_header_decode.md` R118). -/
def isExtended (h7 : Byte) : Bool :=
  h7.extractLsb' 2 2 == 0b10#2

/-- Byte 7 of a header (R81): four rows, one for each value of the version field. -/
def decodeHeader7 (b : Byte) : Instr :=
  let mid := b.extractLsb' 4 4
  let low := b.extractLsb' 0 2
  if b &&& 0x0C#8 = 0x08#8 then .hdrB7Ext mid low
  else if b &&& 0x0C#8 = 0x00#8 then .hdrB7Leg00 mid low
  else if b &&& 0x0C#8 = 0x04#8 then .hdrB7Leg01 mid low
  else .hdrB7Leg11 mid low

/-- Byte 13 of an extended header (R81): its reading depends on the console type `H[7][1:0]`. -/
def decodeHeader13 (h7 b : Byte) : Instr :=
  let console := h7.extractLsb' 0 2
  if console = 1#2 then .hdrB13Vs (b.extractLsb' 4 4) (b.extractLsb' 0 4)
  else if console = 3#2 then .hdrB13Extcon (b.extractLsb' 0 4)
  else .hdrB13Ign

/-- Bytes 8 to 15 of an extended header (R81). -/
def decodeHeaderExt (index : Fin 16) (h7 b : Byte) : Instr :=
  let high := b.extractLsb' 4 4
  let low := b.extractLsb' 0 4
  match index.val with
  | 8 => .hdrB8 high low
  | 9 => .hdrB9 high low
  | 10 => .hdrB10 high low
  | 11 => .hdrB11 high low
  | 12 => .hdrB12 (b.extractLsb' 0 2)
  | 13 => decodeHeader13 h7 b
  | 14 => .hdrB14 (b.extractLsb' 0 2)
  | _ => .hdrB15 (b.extractLsb' 0 6)

/-- Format `HDR8` (R81): byte `index` of a header whose byte 7 is `h7`. Bytes 8 to 15 are split into fields in the extended
version only (R82); in the legacy version all of each is ignored, whatever it holds (R84), so it is the byte of which every
bit is ignored (log entry 12). No byte of a header is rejected here (R84): an identification byte that is not MAGIC's is a
result of its row (`40_header_decode.md` R112). -/
def decodeHeader (index : Fin 16) (h7 b : Byte) : Instr :=
  match index.val with
  | 0 => .hdrB0 b
  | 1 => .hdrB1 b
  | 2 => .hdrB2 b
  | 3 => .hdrB3 b
  | 4 => .hdrB4 b
  | 5 => .hdrB5 b
  | 6 => .hdrB6 (b.extractLsb' 4 4) (b.getLsbD 3) (b.getLsbD 2) (b.getLsbD 1) (b.getLsbD 0)
  | 7 => decodeHeader7 b
  | _ => if isExtended h7 then decodeHeaderExt index h7 b else .hdrB13Ign

/-- The decoder: the instruction a transaction carries, or the name of why it carries none. -/
def decode : Txn → Except DecodeError Instr
  | .cmd word bytes => decodeCmd word bytes
  | .bus a acc => .ok (decodeBus a acc)
  | .proxy p acc => .ok (decodeProxy p acc)
  | .header index h7 b => .ok (decodeHeader index h7 b)

/-- A `CMD36` word from its three fields (R88). -/
def cmdWord (op : BitVec 4) (addr data : BitVec 16) : BitVec 36 :=
  op ++ addr ++ data

/-- A byte of an extended header, presented beside the smallest byte 7 that selects its reading (R82). -/
def extByte (index : Fin 16) (console : BitVec 2) (b : Byte) : Txn :=
  .header index (0b000010#6 ++ console) b

/-- The encoder: the transaction that carries an instruction. Ignored bits are zero. -/
def encode : Instr → Txn
  | .rdb a => .cmd (cmdWord 0x0#4 a 0#16) []
  | .wrb a v => .cmd (cmdWord 0x1#4 a (0#8 ++ v)) []
  | .rdw a => .cmd (cmdWord 0x2#4 a 0#16) []
  | .wrw a w => .cmd (cmdWord 0x3#4 a w) []
  | .install bytes => .cmd (cmdWord 0x4#4 0#16 0#16) bytes
  | .hdrdec input => .cmd (cmdWord 0x5#4 0#16 0#16) input
  | .winRam acc mirror offset => .bus (0b000#3 ++ mirror ++ offset) acc
  | .winPpu acc mirror reg => .bus (0b001#3 ++ mirror ++ reg) acc
  | .winIow acc offset => .bus (0b01000000000#11 ++ offset) acc
  | .winExp1 acc low => .bus (0b01000000001#11 ++ low) acc
  | .winExp2 acc low => .bus (0b0100000001#10 ++ low) acc
  | .winExp3 acc low => .bus (0b010000001#9 ++ low) acc
  | .winExp4 acc low => .bus (0b01000001#8 ++ low) acc
  | .winExp5 acc low => .bus (0b0100001#7 ++ low) acc
  | .winExp6 acc low => .bus (0b010001#6 ++ low) acc
  | .winExp7 acc low => .bus (0b01001#5 ++ low) acc
  | .winExp8 acc low => .bus (0b0101#4 ++ low) acc
  | .winExp9 acc low => .bus (0b011#3 ++ low) acc
  | .winPrgl acc offset => .bus (0b10#2 ++ offset) acc
  | .winPrgu acc offset => .bus (0b11#2 ++ offset) acc
  | .pxRd p => .proxy p .read
  | .pxWr p v => .proxy p (.write v)
  | .hdrB0 b => .header 0 0#8 b
  | .hdrB1 b => .header 1 0#8 b
  | .hdrB2 b => .header 2 0#8 b
  | .hdrB3 b => .header 3 0#8 b
  | .hdrB4 b => .header 4 0#8 b
  | .hdrB5 b => .header 5 0#8 b
  | .hdrB6 m f t b v => .header 6 0#8 (m ++ BitVec.ofBool f ++ BitVec.ofBool t ++ BitVec.ofBool b ++ BitVec.ofBool v)
  | .hdrB7Ext mid console => .header 7 0#8 (mid ++ 0b10#2 ++ console)
  | .hdrB7Leg00 mid flags => .header 7 0#8 (mid ++ 0b00#2 ++ flags)
  | .hdrB7Leg01 mid flags => .header 7 0#8 (mid ++ 0b01#2 ++ flags)
  | .hdrB7Leg11 mid flags => .header 7 0#8 (mid ++ 0b11#2 ++ flags)
  | .hdrB8 high low => extByte 8 0#2 (high ++ low)
  | .hdrB9 high low => extByte 9 0#2 (high ++ low)
  | .hdrB10 high low => extByte 10 0#2 (high ++ low)
  | .hdrB11 high low => extByte 11 0#2 (high ++ low)
  | .hdrB12 t => extByte 12 0#2 (0#6 ++ t)
  | .hdrB13Vs hw ppu => extByte 13 1#2 (hw ++ ppu)
  | .hdrB13Extcon t => extByte 13 3#2 (0#4 ++ t)
  | .hdrB13Ign => extByte 13 0#2 0#8
  | .hdrB14 r => extByte 14 0#2 (0#6 ++ r)
  | .hdrB15 d => extByte 15 0#2 (0#2 ++ d)

/-- The fourteen rows of `A16` as (mask, match) pairs, in the order of R86. -/
def busRows : List (Addr × Addr) :=
  [(0xE000#16, 0x0000#16), (0xE000#16, 0x2000#16), (0xFFE0#16, 0x4000#16), (0xFFE0#16, 0x4020#16)] ++
  [(0xFFC0#16, 0x4040#16), (0xFF80#16, 0x4080#16), (0xFF00#16, 0x4100#16), (0xFE00#16, 0x4200#16)] ++
  [(0xFC00#16, 0x4400#16), (0xF800#16, 0x4800#16), (0xF000#16, 0x5000#16), (0xE000#16, 0x6000#16)] ++
  [(0xC000#16, 0x8000#16), (0xC000#16, 0xC000#16)]

/-- The bits of a transaction match a row of the opcode table: `(bits & mask) == match`. -/
def Txn.matchesRow (t : Txn) (mask pattern : Nat) : Bool :=
  match t with
  | .cmd word _ => word &&& BitVec.ofNat 36 mask == BitVec.ofNat 36 pattern
  | .bus a _ => a &&& BitVec.ofNat 16 mask == BitVec.ofNat 16 pattern
  | .proxy p _ => p &&& BitVec.ofNat 16 mask == BitVec.ofNat 16 pattern
  | .header _ _ b => b &&& BitVec.ofNat 8 mask == BitVec.ofNat 8 pattern

/-- The mask and the match of the instruction's row in `spec/opcode_table.json`. -/
def tableRow : Instr → Nat × Nat
  | .rdb _ => (0xF00000000, 0x000000000)
  | .wrb _ _ => (0xF00000000, 0x100000000)
  | .rdw _ => (0xF00000000, 0x200000000)
  | .wrw _ _ => (0xF00000000, 0x300000000)
  | .install _ => (0xF00000000, 0x400000000)
  | .hdrdec _ => (0xF00000000, 0x500000000)
  | .winRam _ _ _ => (0xE000, 0x0000)
  | .winPpu _ _ _ => (0xE000, 0x2000)
  | .winIow _ _ => (0xFFE0, 0x4000)
  | .winExp1 _ _ => (0xFFE0, 0x4020)
  | .winExp2 _ _ => (0xFFC0, 0x4040)
  | .winExp3 _ _ => (0xFF80, 0x4080)
  | .winExp4 _ _ => (0xFF00, 0x4100)
  | .winExp5 _ _ => (0xFE00, 0x4200)
  | .winExp6 _ _ => (0xFC00, 0x4400)
  | .winExp7 _ _ => (0xF800, 0x4800)
  | .winExp8 _ _ => (0xF000, 0x5000)
  | .winExp9 _ _ => (0xE000, 0x6000)
  | .winPrgl _ _ => (0xC000, 0x8000)
  | .winPrgu _ _ => (0xC000, 0xC000)
  | .pxRd _ | .pxWr _ _ => (0xFFF8, 0x2000)
  | .hdrB0 _ => (0xFF, 0x4E)
  | .hdrB1 _ => (0xFF, 0x45)
  | .hdrB2 _ => (0xFF, 0x53)
  | .hdrB3 _ => (0xFF, 0x1A)
  | .hdrB4 _ | .hdrB5 _ | .hdrB6 _ _ _ _ _ => (0x00, 0x00)
  | .hdrB7Ext _ _ => (0x0C, 0x08)
  | .hdrB7Leg00 _ _ => (0x0C, 0x00)
  | .hdrB7Leg01 _ _ => (0x0C, 0x04)
  | .hdrB7Leg11 _ _ => (0x0C, 0x0C)
  | .hdrB8 _ _ | .hdrB9 _ _ | .hdrB10 _ _ | .hdrB11 _ _ | .hdrB12 _ => (0x00, 0x00)
  | .hdrB13Vs _ _ | .hdrB13Extcon _ | .hdrB13Ign | .hdrB14 _ | .hdrB15 _ => (0x00, 0x00)

/-- The position at which a header byte that comes with no position is read: the rows of `HDR8` that have fixed bits
are tried in the table's order, HDR.B0 to HDR.B3 and then byte 7, whose four rows leave no byte out. DESIGN CHOICE,
safe: log entry 9. -/
def lonePosition (b : Byte) : Fin 16 :=
  if b = 0x4E#8 then 0
  else if b = 0x45#8 then 1
  else if b = 0x53#8 then 2
  else if b = 0x1A#8 then 3
  else 7

/-- The transaction that presents the bits `w` of an opcode-table row of `nbits` bits with nothing known beside them:
a read direction, a byte sequence of 16 zero bytes, a header byte at its `lonePosition`. Log entry 9. -/
def tableTxn (nbits w : Nat) : Option Txn :=
  if nbits ≤ 8 then
    let b := BitVec.ofNat 8 w
    some (.header (lonePosition b) b b)
  else if nbits ≤ 16 then some (.bus (BitVec.ofNat 16 w) .read)
  else if w < 2 ^ 36 then some (.cmd (BitVec.ofNat 36 w) (List.replicate 16 0#8))
  else none

/-- The instruction the decoder reads from the bits `w`, numbered as the opcode table numbers them. -/
def decodeTableWord (nbits w : Nat) : Option Instr :=
  match tableTxn nbits w with
  | none => none
  | some t =>
    match decode t with
    | .ok i => some i
    | .error _ => none

end Sys2Proof
end

