-- ==== Sys2Proof/Machine/State.lean ====
section
/-! DEFINITION. The state of the block as plain data (`10_state.md` R22), the values its operations give back, the
reasons a step stops, and the state after reset (R34). -/

namespace Sys2Proof.Machine

/-- A store's written cells: (offset, byte) pairs, offsets strictly rising and below the capacity (`Memory.wf` in
`Machine/Ops.lean`). An offset with no pair has not been written since power-on: the memory has no value there, and the
store primitive reads its INIT byte instead. Log entry 2. -/
abbrev Memory := List Host.Cell

/-- USEL, one bit (R25): the store that the upper program window reaches. -/
inductive BankSelect where
  | own      -- OWN (0): the upper window reaches PRGU
  | aliased  -- ALIAS (1): the upper window reaches PRGL
  deriving DecidableEq, Repr

/-- The fatal faults (`60_exceptions.md` R225), each with what it records. A fatal fault is TAKEN (R226): the step
answers a next state with FAULT set, so that no step of this model answers `Host.Outcome.fault`; the type is that
outcome's reason type and FAULT's cause. Safe: after it every access and INSTALL is refused. -/
inductive Fault where
  /-- Raised by the store primitives on an offset at or beyond the capacity (R200 to R202). No operation reaches it
  (R159). Safe. -/
  | storeOffsetOutOfRange (S : Store) (o : Nat)
  /-- Raised by the proxy primitives on an address outside `[0x2000, 0x2008)` (R209). The access operations never reach
  it (R154); the `PXA16` rows do, on such an address. Safe. -/
  | proxyAddressOutOfRange (p : Addr)
  /-- Raised by INSTALL on an empty byte sequence (R185). Safe. -/
  | emptyProgram
  deriving DecidableEq, Repr

/-- Why there is no step. -/
inductive Refusal where
  /-- An instruction with no meaning yet, raised by `exec`'s arm of it. Safe. No arm raises it. -/
  | notModelled (mnemonic : String)
  /-- Raised by `step` for the codes `0x6` to `0xF` of `CMD36` (`30_encoding.md` R90). Safe. -/
  | reservedOpcode (op : BitVec 4)
  /-- Raised by every access and INSTALL while FAULT is set (`60_exceptions.md` R227). Safe. -/
  | faultLatched (cause : Fault)
  deriving DecidableEq, Repr

/-- The parse failures of HDRDEC (`60_exceptions.md` R221 to R223). Results, not faults. -/
inductive ParseFailure where
  | truncatedHeader
  | invalidFormat
  deriving DecidableEq, Repr

/-- The container-version flag (`40_header_decode.md` R118). -/
inductive Version where
  | legacy
  | extended
  deriving DecidableEq, Repr

/-- The mirroring mode (R116). Nothing in the block reads it (`10_state.md` R31). -/
inductive Mirroring where
  | horizontal
  | vertical
  | fourScreen
  deriving DecidableEq, Repr

/-- The header record, the fields of `10_state.md` R30's table in its order. A field that is defined in the extended
version or for one console type only is absent (`none`) elsewhere (decision D7). -/
structure CartridgeHeader where
  idTag : IdTag
  prgRomLsb : BitVec 8
  chrRomLsb : BitVec 8
  mirrorVertical : Bool
  mirrorHorizontal : Bool
  battery : Bool
  trainer : Bool
  fourScreen : Bool
  mirroringMode : Mirroring
  version : Version
  extValid : Bool
  /-- 0 Standard, 1 VsSystem, 2 PlayChoice10, 3 ExtendedConsole (R119). -/
  consoleType : BitVec 2
  vsFlag : Bool
  pc10Flag : Bool
  mapper : BitVec 12
  submapper : Option (BitVec 4)
  prgRomMsb : BitVec 4
  chrRomMsb : BitVec 4
  prgRomSize : BitVec 12
  chrRomSize : BitVec 12
  prgRamShift : Option (BitVec 4)
  prgNvramShift : Option (BitVec 4)
  prgRamSize : Option (BitVec 22)
  prgNvramSize : Option (BitVec 22)
  chrRamShift : Option (BitVec 4)
  chrNvramShift : Option (BitVec 4)
  chrRamSize : Option (BitVec 22)
  chrNvramSize : Option (BitVec 22)
  /-- 0 NTSC, 1 PAL, 2 MultiRegion, 3 Dendy (R128). -/
  timing : Option (BitVec 2)
  vsPpuType : Option (BitVec 4)
  vsHwType : Option (BitVec 4)
  extConsoleType : Option (BitVec 4)
  miscRoms : Option (BitVec 2)
  expansionDevice : Option (BitVec 6)
  deriving DecidableEq, Repr

/-- What one header byte gives (the `HDR8` rows): the fields of the record that come from that byte alone, and the
parts that are combined with another byte's (R117, R120, R121). -/
inductive HeaderPart where
  /-- Byte 0 to 3 agrees with MAGIC (R112). -/
  | idByte (b : Byte)
  | prgRomLsb (v : BitVec 8)
  | chrRomLsb (v : BitVec 8)
  /-- Byte 6 (R114 to R117). -/
  | flags6 (mapperLo : BitVec 4) (fourScreen trainer battery vertical horizontal : Bool) (mode : Mirroring)
  /-- Byte 7 (R118 to R120). -/
  | flags7 (version : Version) (mapperMid : BitVec 4) (console : BitVec 2) (vs pc10 : Bool)
  | mapperHigh (submapper mapperHi : BitVec 4)
  | romMsb (chr prg : BitVec 4)
  | prgRam (nvramShift ramShift : BitVec 4) (nvramSize ramSize : BitVec 22)
  | chrRam (nvramShift ramShift : BitVec 4) (nvramSize ramSize : BitVec 22)
  | timing (t : BitVec 2)
  | vsTypes (hw ppu : BitVec 4)
  | extConsole (t : BitVec 4)
  /-- An ignored byte gives no field (`30_encoding.md` R84): byte 13 when the console type selects no sub-type, and bytes 8
  to 15 in the legacy version. -/
  | ignored
  | miscRoms (n : BitVec 2)
  | expansion (device : BitVec 6)
  deriving DecidableEq, Repr

/-- What a completed operation gives back (`30_encoding.md` R89). An operation that ends in a fatal fault gives nothing
back (`60_exceptions.md` R226 (c)). -/
inductive Result where
  /-- No value: WRB, WRW, INSTALL, and the writing rows of `A16` and `PXA16`. -/
  | ok
  | byte (v : Byte)
  | word (w : Word)
  | header (r : CartridgeHeader)
  | parseFailure (e : ParseFailure)
  | part (p : HeaderPart)
  deriving DecidableEq, Repr

/-- The place a byte access reached, as the trace reports it (`43_store_and_proxy.md` R210). -/
inductive Region where
  | store (S : Store)
  | ppu
  deriving DecidableEq, Repr

/-- Whether a traced access was a read or a write. -/
inductive AccessKind where
  | read
  | write
  deriving DecidableEq, Repr

/-- One trace event: (operation, address, resolved region, value) (R210). The address is the one issued. -/
structure TraceEvent where
  kind : AccessKind
  addr : Addr
  region : Region
  value : Byte
  deriving DecidableEq, Repr

/-- What the requester and the host issue (`70_reset_and_hazards.md` R269): a transaction on a port, the reset, or the
host's load sequence (`30_encoding.md` R93). -/
inductive Request where
  | txn (t : Txn)
  | reset
  | loadCart (file : List Byte)
  deriving DecidableEq, Repr

/-- The state. The first seven fields are the block's (R22); the others are the model's own (INVENTORY.md, '## State';
log entries 1 to 5). -/
structure State where
  /-- The store RAM, 0x0800 cells (R23). -/
  ram : Memory
  /-- The store IOW, 0x20 cells (R23). -/
  iow : Memory
  /-- The store EXP, 0x3FE0 cells (R23). -/
  exp : Memory
  /-- The store PRGL, 0x4000 cells (R23). -/
  prgl : Memory
  /-- The store PRGU, 0x4000 cells (R23). -/
  prgu : Memory
  /-- USEL (R25). -/
  usel : BankSelect
  /-- FAULT: the valid bit is `isSome`, the value the cause (R26). -/
  fault : Option Fault
  /-- The parameters of R6; no step changes them. Log entry 4. -/
  cfg : Params
  /-- Power-ons so far: selects the draw of INIT. Log entry 3. -/
  session : Nat
  /-- Proxy reads so far: selects the proxy's answer. Log entry 3. -/
  draws : Nat
  /-- Every event the proxy has seen this session, oldest first (R206 to R208). -/
  proxyLog : List ProxyEvent
  /-- Every trace event emitted this session, oldest first (R210). -/
  trace : List TraceEvent
  /-- The results of the operations completed this session, oldest first. Log entry 5. -/
  results : List Result
  /-- What has been issued and not yet taken, oldest first. Log entry 1. -/
  pending : List Request
  deriving DecidableEq, Repr

/-- The machine right after reset (R34, `70_reset_and_hazards.md` R260): no cell written, so every cell holds its INIT
byte; USEL = OWN; FAULT clear; nothing issued. The parameters at the spec's defaults. -/
def State.reset : State where
  ram := []
  iow := []
  exp := []
  prgl := []
  prgu := []
  usel := .own
  fault := none
  cfg := {}
  session := 0
  draws := 0
  proxyLog := []
  trace := []
  results := []
  pending := []

end Sys2Proof.Machine
end

