-- ==== Sys2Proof/Machine/Ops.lean ====
section
/-! DEFINITION. The named operations over the stores, the proxy port, the outputs and the inputs; taking a fatal fault
(`60_exceptions.md` R226) and the power-on that alone undoes it (`70_reset_and_hazards.md` R260). -/

namespace Sys2Proof.Machine

/-! ## Memory: the written cells of one store -/

/-- The byte written at offset `o`, if one was. -/
def Memory.find : Memory → Nat → Option Byte
  | [], _ => none
  | (k, b) :: rest, o => if k = o then some b else Memory.find rest o

/-- Write the byte at offset `o`, keeping the offsets rising. -/
def Memory.insert : Memory → Nat → Byte → Memory
  | [], o, v => [(o, v)]
  | (k, b) :: rest, o, v =>
    if o < k then (o, v) :: (k, b) :: rest
    else if o = k then (k, v) :: rest
    else (k, b) :: Memory.insert rest o v

/-- The pairs of a run of bytes that starts at offset `o`. -/
def Memory.ofRun (o : Nat) : List Byte → Memory
  | [] => []
  | b :: rest => (o, b) :: Memory.ofRun (o + 1) rest

/-- Write a run of bytes from offset `o` on: `S[o + i] <- bytes[i]` (R202). -/
def Memory.insertRun (m : Memory) (o : Nat) (bytes : List Byte) : Memory :=
  m.filter (fun c => decide (c.1 < o)) ++ Memory.ofRun o bytes ++ m.filter (fun c => decide (o + bytes.length ≤ c.1))

/-- The canonical form from offset `low` on: offsets strictly rising, each below `cap`. -/
def Memory.wfFrom (cap : Nat) : Nat → Memory → Bool
  | _, [] => true
  | low, (k, _) :: rest => decide (low ≤ k) && decide (k < cap) && Memory.wfFrom cap (k + 1) rest

/-- The canonical form of a store of capacity `cap`. -/
def Memory.wf (cap : Nat) (m : Memory) : Bool :=
  Memory.wfFrom cap 0 m

/-! ## The stores -/

/-- The capacities (`10_state.md` R23; EXP and the banks by decision D12). -/
def cap : Store → Nat
  | .ram => 0x0800
  | .iow => 0x20
  | .exp => 0x3FE0
  | .prgl => 0x4000
  | .prgu => 0x4000

/-- The written cells of one store. -/
def State.store (s : State) : Store → Memory
  | .ram => s.ram
  | .iow => s.iow
  | .exp => s.exp
  | .prgl => s.prgl
  | .prgu => s.prgu

/-- Replace the written cells of one store. -/
def State.setStore (s : State) (S : Store) (m : Memory) : State :=
  match S with
  | .ram => { s with ram := m }
  | .iow => { s with iow := m }
  | .exp => { s with exp := m }
  | .prgl => { s with prgl := m }
  | .prgu => { s with prgu := m }

/-- Every store is in canonical form. -/
def State.wf (s : State) : Bool :=
  Memory.wf (cap .ram) s.ram && Memory.wf (cap .iow) s.iow && Memory.wf (cap .exp) s.exp &&
    Memory.wf (cap .prgl) s.prgl && Memory.wf (cap .prgu) s.prgu

/-- The byte the cell `S[o]` holds: the last one written, or INIT if there was none (`20_memory.md` R61 (c)). -/
def State.cell (s : State) (S : Store) (o : Nat) : Byte :=
  (Memory.find (s.store S) o).getD (Config.initByte s.session S o)

/-- `S[o] <- v` (`00_scope.md` R9). -/
def State.setCell (s : State) (S : Store) (o : Nat) (v : Byte) : State :=
  s.setStore S (Memory.insert (s.store S) o v)

/-! ## Operations that a fatal fault can end -/

/-- How an operation or primitive ends: with a value, or with a fatal fault raised. Both carry the state at that
moment: what was done before the fault stays done (R226 (e)). -/
inductive Effect (α : Type) where
  | done (value : α) (s : State)
  | raised (f : Fault) (s : State)
  deriving DecidableEq, Repr

/-- Go on with what follows; after a fatal fault nothing follows (R226 (b)). -/
def andThen {α β : Type} (e : Effect α) (k : α → State → Effect β) : Effect β :=
  match e with
  | .done value s => k value s
  | .raised f s => .raised f s

/-- `StRead(S, o)` (`43_store_and_proxy.md` R200). -/
def stRead (S : Store) (o : Nat) (s : State) : Effect Byte :=
  if o < cap S then .done (s.cell S o) s
  else .raised (.storeOffsetOutOfRange S o) s

/-- `StWrite(S, o, v)` (R201). -/
def stWrite (S : Store) (o : Nat) (v : Byte) (s : State) : Effect Unit :=
  if o < cap S then .done () (s.setCell S o v)
  else .raised (.storeOffsetOutOfRange S o) s

/-- `StBulk(S, o, bytes)` (R202): the whole run is checked before any byte is written. -/
def stBulk (S : Store) (o : Nat) (bytes : List Byte) (s : State) : Effect Unit :=
  if o + bytes.length ≤ cap S then .done () (s.setStore S (Memory.insertRun (s.store S) o bytes))
  else .raised (.storeOffsetOutOfRange S (o + bytes.length - 1)) s

/-- `PxRead(p)` (R206): the event, and the byte the graphics unit answers, a free value (R208). -/
def pxRead (p : Addr) (s : State) : Effect Byte :=
  if 0x2000 ≤ p.toNat ∧ p.toNat < 0x2008 then
    .done (Config.proxyAnswer s.draws s.proxyLog p)
      { s with proxyLog := s.proxyLog ++ [.rd p], draws := s.draws + 1 }
  else .raised (.proxyAddressOutOfRange p) s

/-- `PxWrite(p, v)` (R207): the event, and nothing else in the block. -/
def pxWrite (p : Addr) (v : Byte) (s : State) : Effect Unit :=
  if 0x2000 ≤ p.toNat ∧ p.toNat < 0x2008 then .done () { s with proxyLog := s.proxyLog ++ [.wr p v] }
  else .raised (.proxyAddressOutOfRange p) s

/-! ## Fatal faults, results, reset -/

/-- Taking a fatal fault (R226 (d), (e)): FAULT is set with its cause, nothing else changes. -/
def takeFault (f : Fault) (s : State) : State :=
  { s with fault := some f }

/-- Power-on (`70_reset_and_hazards.md` R260), the only way to clear FAULT (`60_exceptions.md` R231): a new session,
with INIT drawn again. What stays is not the block's: the parameters, the count of proxy reads, and what has been
issued and not yet taken. -/
def powerOn (s : State) : State :=
  { State.reset with cfg := s.cfg, session := s.session + 1, draws := s.draws, pending := s.pending }

/-- Give a result back. -/
def State.answer (s : State) (r : Result) : State :=
  { s with results := s.results ++ [r] }

/-- The end of an operation: its result, or the fatal fault it raised, taken; then there is no result (R226 (c)). -/
def finish (e : Effect Result) : Host.Outcome State Fault Refusal :=
  match e with
  | .done r s => .next (s.answer r)
  | .raised f s => .next (takeFault f s)

/-- While FAULT is set the block accepts no operation (R227). -/
def whenLive (s : State) (k : Host.Outcome State Fault Refusal) : Host.Outcome State Fault Refusal :=
  match s.fault with
  | none => k
  | some f => .refused (.faultLatched f)

/-- One trace event, when the trace output is present (R210). -/
def emit (kind : AccessKind) (a : Addr) (region : Region) (v : Byte) (s : State) : State :=
  if s.cfg.trace then { s with trace := s.trace ++ [⟨kind, a, region, v⟩] } else s

/-! ## What is issued -/

/-- The oldest request issued and not yet taken, and the state without it. -/
def takeRequest (s : State) : Option (Request × State) :=
  match s.pending with
  | [] => none
  | r :: rest => some (r, { s with pending := rest })

/-- Issue a request ahead of all others. -/
def issueFirst (s : State) (r : Request) : State :=
  { s with pending := r :: s.pending }

/-- Why a transaction that is no instruction is refused. -/
def decodeRefusal : DecodeError → Refusal
  | .reservedOpcode op => .reservedOpcode op

end Sys2Proof.Machine
end

