-- ==== Sys2Proof/Machine/Operands.lean ====
section
/-! DEFINITION. The operand forms: a bus address routed to a store cell or a proxy register (`41_bus_access.md` R150 to
R158), one byte access at a routed place, the halves of a word, and the parts of header bytes. -/

namespace Sys2Proof.Machine

/-! ## The router -/

/-- Where an address leads: a cell of a store, or a proxy address. -/
inductive Target where
  | cell (S : Store) (o : Nat)
  | ppu (p : Addr)
  deriving DecidableEq, Repr

/-- The bank-select decoder: the store behind the upper program window (`10_state.md` R25). -/
def upperBank : BankSelect → Store
  | .own => .prgu
  | .aliased => .prgl

/-- The proxy address of a register index: `0x2000 + r` (`30_encoding.md` R87). -/
def proxyAddr (r : BitVec 3) : Addr :=
  0x2000#16 + r.setWidth 16

/-- `Route(a)` (R150). It reads USEL and nothing else of the state. -/
def route (usel : BankSelect) (a : Addr) : Target :=
  if a.toNat < 0x2000 then .cell .ram (a.toNat % 0x0800)
  else if a.toNat < 0x4000 then .ppu (BitVec.ofNat 16 (0x2000 + (a.toNat - 0x2000) % 8))
  else if a.toNat < 0x4020 then .cell .iow (a.toNat - 0x4000)
  else if a.toNat < 0x8000 then .cell .exp (a.toNat - 0x4020)
  else if a.toNat < 0xC000 then .cell .prgl (a.toNat - 0x8000)
  else .cell (upperBank usel) (a.toNat - 0xC000)

/-! ## One byte access -/

/-- Read one byte at the place where the issued address `a` leads, and trace it (R160). -/
def readAt (T : Target) (a : Addr) (s : State) : Effect Byte :=
  match T with
  | .cell S o => andThen (stRead S o s) fun v s1 => .done v (emit .read a (.store S) v s1)
  | .ppu p => andThen (pxRead p s) fun v s1 => .done v (emit .read a .ppu v s1)

/-- Write one byte at the place where the issued address `a` leads, and trace it (R161). -/
def writeAt (T : Target) (a : Addr) (v : Byte) (s : State) : Effect Unit :=
  match T with
  | .cell S o => andThen (stWrite S o v s) fun _ s1 => .done () (emit .write a (.store S) v s1)
  | .ppu p => andThen (pxWrite p v s) fun _ s1 => .done () (emit .write a .ppu v s1)

/-- One byte access in the direction the port signals, and its result. -/
def accessAt (T : Target) (a : Addr) (acc : Access) (s : State) : Effect Result :=
  match acc with
  | .read => andThen (readAt T a s) fun v s1 => .done (.byte v) s1
  | .write v => andThen (writeAt T a v s) fun _ s1 => .done .ok s1

/-- `MemRead(a, 1)` (`00_scope.md` R9): the address routed, then read. -/
def readByte (a : Addr) (s : State) : Effect Byte :=
  readAt (route s.usel a) a s

/-- `MemWrite(a, 1, v)`: the address routed, then written. -/
def writeByte (a : Addr) (v : Byte) (s : State) : Effect Unit :=
  writeAt (route s.usel a) a v s

/-! ## Words -/

/-- The second address of a word access: `(a + 1) mod 0x10000` (`20_memory.md` R54; decision D16). -/
def nextAddr (a : Addr) : Addr :=
  a + 1#16

/-- `w[7:0]`. -/
def loByte (w : Word) : Byte :=
  w.extractLsb' 0 8

/-- `w[15:8]`. -/
def hiByte (w : Word) : Byte :=
  w.extractLsb' 8 8

/-- `(hi << 8) | lo` (R50). -/
def joinWord (hi lo : Byte) : Word :=
  (hi.setWidth 16 <<< 8) ||| lo.setWidth 16

/-- `MemRead(a, 2)`: low byte first, then high byte (R162). -/
def readWord (a : Addr) (s : State) : Effect Word :=
  andThen (readByte a s) fun lo s1 =>
    andThen (readByte (nextAddr a) s1) fun hi s2 => .done (joinWord hi lo) s2

/-- `MemWrite(a, 2, w)`: low byte first, then high byte (R163). -/
def writeWord (a : Addr) (w : Word) (s : State) : Effect Unit :=
  andThen (writeByte a (loByte w) s) fun _ s1 => writeByte (nextAddr a) (hiByte w) s1

/-! ## Parts of header bytes -/

/-- `H[i]` (`00_scope.md` R9). -/
def headerByte (input : List Byte) (i : Nat) : Byte :=
  input.getD i 0#8

/-- `b[7:4]`. -/
def highNibble (b : Byte) : BitVec 4 :=
  b.extractLsb' 4 4

/-- `b[3:0]`. -/
def lowNibble (b : Byte) : BitVec 4 :=
  b.extractLsb' 0 4

/-- `H[0..3]`. -/
def idTagOf (input : List Byte) : IdTag :=
  ⟨headerByte input 0, headerByte input 1, headerByte input 2, headerByte input 3⟩

/-- The mapper number by shift and OR (`30_encoding.md` R83 (a)); in the legacy version `hi` is 0. -/
def joinMapper (hi mid lo : BitVec 4) : BitVec 12 :=
  (hi.setWidth 12 <<< 8) ||| (mid.setWidth 12 <<< 4) ||| lo.setWidth 12

/-- A ROM size by shift and OR (R83 (b), `40_header_decode.md` R124). -/
def joinSize (msb : BitVec 4) (lsb : Byte) : BitVec 12 :=
  (msb.setWidth 12 <<< 8) ||| lsb.setWidth 12

/-- A RAM size from its shift count (R126): 0 for 0, else `64 << s`, 22 bits. -/
def ramSize (shift : BitVec 4) : BitVec 22 :=
  if shift = 0#4 then 0#22 else 64#22 <<< shift.toNat

end Sys2Proof.Machine
end

