-- ==== Sys2Proof/Machine/Flags.lean ====
section
/-! DEFINITION. The Boolean fields and tags of a header (the block has no condition codes, `10_state.md` R29), and the
status codes of `60_exceptions.md` R228. -/

namespace Sys2Proof.Machine

/-- `mirror_vertical`: bit 0 of byte 6 (`40_header_decode.md` R114). -/
def verticalFlag (h6 : Byte) : Bool :=
  h6.getLsbD 0

/-- `mirror_horizontal`: always the opposite of `mirror_vertical` (R114; decision D9). -/
def horizontalOf (vertical : Bool) : Bool :=
  !vertical

/-- `battery`: bit 1 of byte 6 (R115). -/
def batteryFlag (h6 : Byte) : Bool :=
  h6.getLsbD 1

/-- `trainer`: bit 2 of byte 6 (R115). -/
def trainerFlag (h6 : Byte) : Bool :=
  h6.getLsbD 2

/-- `four_screen`: bit 3 of byte 6 (R115). -/
def fourScreenFlag (h6 : Byte) : Bool :=
  h6.getLsbD 3

/-- `mirroring_mode` (R116). -/
def mirroringMode (fourScreen vertical : Bool) : Mirroring :=
  if fourScreen then .fourScreen else if vertical then .vertical else .horizontal

/-- `version` (R118). -/
def versionOf (h7 : Byte) : Version :=
  if isExtended h7 then .extended else .legacy

/-- `console_type`, a direct field (R119). -/
def consoleOf (h7 : Byte) : BitVec 2 :=
  h7.extractLsb' 0 2

/-- `vs_flag`: bit 0 of the console field (R119). -/
def vsFlagOf (console : BitVec 2) : Bool :=
  console.getLsbD 0

/-- `pc10_flag`: bit 1 of the console field (R119). -/
def pc10FlagOf (console : BitVec 2) : Bool :=
  console.getLsbD 1

/-- The code of a fatal fault: bit 7 set (R228). -/
def faultCode : Fault → BitVec 8
  | .storeOffsetOutOfRange _ _ => 0x80#8
  | .proxyAddressOutOfRange _ => 0x81#8
  | .emptyProgram => 0x82#8

/-- The code of a parse failure (R228). -/
def failureCode : ParseFailure → BitVec 8
  | .truncatedHeader => 0x01#8
  | .invalidFormat => 0x02#8

/-- The code of a result: a parse failure's, or `Ok` (R228). -/
def resultCode : Result → BitVec 8
  | .ok | .byte _ | .word _ | .header _ | .part _ => 0x00#8
  | .parseFailure e => failureCode e

/-- What a status port shows: FAULT's code, or the last result's (R228). R228 gives each outcome its code and leaves two
points open, which the model settles: DESIGN CHOICE, unsafe, log entry 14. Before any operation of the session has given a
result the port shows `0x00`. While FAULT is set it shows FAULT's code, also after a result that HDRDEC or a header-byte row
has given since. -/
def statusCode (s : State) : BitVec 8 :=
  match s.fault with
  | some f => faultCode f
  | none => ((s.results.getLast?).map resultCode).getD 0x00#8

end Sys2Proof.Machine
end

