-- ==== Sys2Proof/Machine/Bus.lean ====
section
/-! DEFINITION. The four access operations of the requester port (`41_bus_access.md` R160 to R163). -/

namespace Sys2Proof.Machine

/-- `RDB a` (R160). -/
def execRdb (a : Addr) (s : State) : Host.Outcome State Fault Refusal :=
  whenLive s (finish (andThen (readByte a s) fun v s1 => .done (.byte v) s1))

/-- `WRB a, v` (R161). -/
def execWrb (a : Addr) (v : Byte) (s : State) : Host.Outcome State Fault Refusal :=
  whenLive s (finish (andThen (writeByte a v s) fun _ s1 => .done .ok s1))

/-- `RDW a` (R162). -/
def execRdw (a : Addr) (s : State) : Host.Outcome State Fault Refusal :=
  whenLive s (finish (andThen (readWord a s) fun w s1 => .done (.word w) s1))

/-- `WRW a, w` (R163). -/
def execWrw (a : Addr) (w : Word) (s : State) : Host.Outcome State Fault Refusal :=
  whenLive s (finish (andThen (writeWord a w s) fun _ s1 => .done .ok s1))

end Sys2Proof.Machine
end

