-- ==== Sys2Proof/Machine/Header.lean ====
section
/-! DEFINITION. The ROM header decoder (`40_header_decode.md`). -/

namespace Sys2Proof.Machine

/-- A field of the extended version: absent in the legacy version (R133). -/
def ifExtended {α : Type} (input : List Byte) (v : α) : Option α :=
  if isExtended (headerByte input 7) then some v else none

/-- A sub-type field of byte 13: present in the extended version with the console type that selects it (R129, R130). -/
def ifConsole {α : Type} (input : List Byte) (console : BitVec 2) (v : α) : Option α :=
  if isExtended (headerByte input 7) ∧ consoleOf (headerByte input 7) = console then some v else none

/-- A nibble of the extended version that counts as 0 in the legacy version (R120, R123). -/
def extNibble (input : List Byte) (n : BitVec 4) : BitVec 4 :=
  if isExtended (headerByte input 7) then n else 0#4

/-- The record of a header whose two checks have passed: the assignments of R136 in the field order of R30. -/
def headerRecord (input : List Byte) : CartridgeHeader :=
  let h := headerByte input
  let prgRomMsb := extNibble input (lowNibble (h 9))
  let chrRomMsb := extNibble input (highNibble (h 9))
  { idTag := idTagOf input
    prgRomLsb := h 4
    chrRomLsb := h 5
    mirrorVertical := verticalFlag (h 6)
    mirrorHorizontal := horizontalOf (verticalFlag (h 6))
    battery := batteryFlag (h 6)
    trainer := trainerFlag (h 6)
    fourScreen := fourScreenFlag (h 6)
    mirroringMode := mirroringMode (fourScreenFlag (h 6)) (verticalFlag (h 6))
    version := versionOf (h 7)
    extValid := isExtended (h 7)
    consoleType := consoleOf (h 7)
    vsFlag := vsFlagOf (consoleOf (h 7))
    pc10Flag := pc10FlagOf (consoleOf (h 7))
    mapper := joinMapper (extNibble input (lowNibble (h 8))) (highNibble (h 7)) (highNibble (h 6))
    submapper := ifExtended input (highNibble (h 8))
    prgRomMsb := prgRomMsb
    chrRomMsb := chrRomMsb
    prgRomSize := joinSize prgRomMsb (h 4)
    chrRomSize := joinSize chrRomMsb (h 5)
    prgRamShift := ifExtended input (lowNibble (h 10))
    prgNvramShift := ifExtended input (highNibble (h 10))
    prgRamSize := ifExtended input (ramSize (lowNibble (h 10)))
    prgNvramSize := ifExtended input (ramSize (highNibble (h 10)))
    chrRamShift := ifExtended input (lowNibble (h 11))
    chrNvramShift := ifExtended input (highNibble (h 11))
    chrRamSize := ifExtended input (ramSize (lowNibble (h 11)))
    chrNvramSize := ifExtended input (ramSize (highNibble (h 11)))
    timing := ifExtended input ((h 12).extractLsb' 0 2)
    vsPpuType := ifConsole input 1#2 (lowNibble (h 13))
    vsHwType := ifConsole input 1#2 (highNibble (h 13))
    extConsoleType := ifConsole input 3#2 (lowNibble (h 13))
    miscRoms := ifExtended input ((h 14).extractLsb' 0 2)
    expansionDevice := ifExtended input ((h 15).extractLsb' 0 6) }

/-- `HDRDEC` as the pure function it is (R110, R135): the length check (R111), the identification check against MAGIC
(R112), the record (R136). -/
def headerDecode (magic : IdTag) (input : List Byte) : Except ParseFailure CartridgeHeader :=
  if input.length < 16 then .error .truncatedHeader
  else if idTagOf input ≠ magic then .error .invalidFormat
  else .ok (headerRecord input)

/-- `HDRDEC in` (R136). It reads no state but the parameter MAGIC, so that it answers with FAULT set too
(`60_exceptions.md` R227; log entry 7). -/
def execHdrdec (input : List Byte) (s : State) : Host.Outcome State Fault Refusal :=
  match headerDecode s.cfg.magic input with
  | .ok r => .next (s.answer (.header r))
  | .error e => .next (s.answer (.parseFailure e))

end Sys2Proof.Machine
end

