-- ==== Sys2Proof/Machine/HeaderByte.lean ====
section
/-! DEFINITION. The rows of `HDR8` (`30_encoding.md` R81): what one header byte gives. Pure, like the decoder whose
steps they are: they change no state of the block and answer with FAULT set too (log entry 7). That the record of
`HDRDEC` agrees with every one of them is a statement. -/

namespace Sys2Proof.Machine

/-- Give back what a header byte gives. -/
def givePart (p : HeaderPart) (s : State) : Host.Outcome State Fault Refusal :=
  .next (s.answer (.part p))

/-- The comparison of one identification byte with MAGIC's: a mismatch is `InvalidFormat` (`40_header_decode.md`
R112). -/
def giveIdByte (b expected : Byte) (s : State) : Host.Outcome State Fault Refusal :=
  if b = expected then givePart (.idByte b) s else .next (s.answer (.parseFailure .invalidFormat))

/-- `HDR.B0`: identification byte 0 (R112). -/
def execHdrB0 (b : Byte) (s : State) : Host.Outcome State Fault Refusal :=
  giveIdByte b s.cfg.magic.b0 s

/-- `HDR.B1`: identification byte 1 (R112). -/
def execHdrB1 (b : Byte) (s : State) : Host.Outcome State Fault Refusal :=
  giveIdByte b s.cfg.magic.b1 s

/-- `HDR.B2`: identification byte 2 (R112). -/
def execHdrB2 (b : Byte) (s : State) : Host.Outcome State Fault Refusal :=
  giveIdByte b s.cfg.magic.b2 s

/-- `HDR.B3`: identification byte 3 (R112). -/
def execHdrB3 (b : Byte) (s : State) : Host.Outcome State Fault Refusal :=
  giveIdByte b s.cfg.magic.b3 s

/-- `HDR.B4`: `prg_rom_lsb` (R113). -/
def execHdrB4 (lsb : Byte) (s : State) : Host.Outcome State Fault Refusal :=
  givePart (.prgRomLsb lsb) s

/-- `HDR.B5`: `chr_rom_lsb` (R113). -/
def execHdrB5 (lsb : Byte) (s : State) : Host.Outcome State Fault Refusal :=
  givePart (.chrRomLsb lsb) s

/-- `HDR.B6`: the flags and the low mapper nibble (R114 to R117). -/
def execHdrB6 (mapperLo : BitVec 4) (fourScreen trainer battery vertical : Bool) (s : State) :
    Host.Outcome State Fault Refusal :=
  givePart (.flags6 mapperLo fourScreen trainer battery vertical (horizontalOf vertical)
    (mirroringMode fourScreen vertical)) s

/-- What byte 7 gives in either version (R118 to R120). -/
def give7 (version : Version) (mid : BitVec 4) (console : BitVec 2) (s : State) : Host.Outcome State Fault Refusal :=
  givePart (.flags7 version mid console (vsFlagOf console) (pc10FlagOf console)) s

/-- `HDR.B7.EXT`: version field `0b10` (R118). -/
def execHdrB7Ext (mid : BitVec 4) (console : BitVec 2) (s : State) : Host.Outcome State Fault Refusal :=
  give7 .extended mid console s

/-- `HDR.B7.LEG00`: version field `0b00` (R118). -/
def execHdrB7Leg00 (mid : BitVec 4) (flags : BitVec 2) (s : State) : Host.Outcome State Fault Refusal :=
  give7 .legacy mid flags s

/-- `HDR.B7.LEG01`: version field `0b01` (R118). -/
def execHdrB7Leg01 (mid : BitVec 4) (flags : BitVec 2) (s : State) : Host.Outcome State Fault Refusal :=
  give7 .legacy mid flags s

/-- `HDR.B7.LEG11`: version field `0b11` (R118). -/
def execHdrB7Leg11 (mid : BitVec 4) (flags : BitVec 2) (s : State) : Host.Outcome State Fault Refusal :=
  give7 .legacy mid flags s

/-- `HDR.B8`: the sub-mapper and the high mapper nibble (R121, R122). -/
def execHdrB8 (submapper mapperHi : BitVec 4) (s : State) : Host.Outcome State Fault Refusal :=
  givePart (.mapperHigh submapper mapperHi) s

/-- `HDR.B9`: the high nibbles of the ROM sizes (R123). -/
def execHdrB9 (chr prg : BitVec 4) (s : State) : Host.Outcome State Fault Refusal :=
  givePart (.romMsb chr prg) s

/-- `HDR.B10`: the program RAM shift counts and sizes (R125, R126). -/
def execHdrB10 (nvram ram : BitVec 4) (s : State) : Host.Outcome State Fault Refusal :=
  givePart (.prgRam nvram ram (ramSize nvram) (ramSize ram)) s

/-- `HDR.B11`: the graphics RAM shift counts and sizes (R127). -/
def execHdrB11 (nvram ram : BitVec 4) (s : State) : Host.Outcome State Fault Refusal :=
  givePart (.chrRam nvram ram (ramSize nvram) (ramSize ram)) s

/-- `HDR.B12`: the timing tag, a direct field (R128). -/
def execHdrB12 (timing : BitVec 2) (s : State) : Host.Outcome State Fault Refusal :=
  givePart (.timing timing) s

/-- `HDR.B13.VS`: the Vs.-System sub-types (R129). -/
def execHdrB13Vs (hw ppu : BitVec 4) (s : State) : Host.Outcome State Fault Refusal :=
  givePart (.vsTypes hw ppu) s

/-- `HDR.B13.EXTCON`: the extended-console sub-type (R130). -/
def execHdrB13Extcon (console : BitVec 4) (s : State) : Host.Outcome State Fault Refusal :=
  givePart (.extConsole console) s

/-- `HDR.B13.IGN`: the byte is ignored and gives no field (R130; `30_encoding.md` R84; decision D11). So is a byte 8 to 15 of a
legacy header (R133; `93_implementation_defined.md` U16). -/
def execHdrB13Ign (s : State) : Host.Outcome State Fault Refusal :=
  givePart .ignored s

/-- `HDR.B14`: the count of miscellaneous ROM images (R131). -/
def execHdrB14 (roms : BitVec 2) (s : State) : Host.Outcome State Fault Refusal :=
  givePart (.miscRoms roms) s

/-- `HDR.B15`: the default expansion device (R132). -/
def execHdrB15 (device : BitVec 6) (s : State) : Host.Outcome State Fault Refusal :=
  givePart (.expansion device) s

end Sys2Proof.Machine
end

