-- ==== Sys2Proof/Machine/Install.lean ====
section
/-! DEFINITION. Program installation (`42_program_install.md`). -/

namespace Sys2Proof.Machine

/-- The pseudocode of R181: nothing is a contract violation (R185), more than 16 KB fills the lower bank and then the
upper bank and drops what is beyond 32 KB (R182, R184), 16 KB or less makes the upper slot an alias (R183). -/
def installProgram (bytes : List Byte) (s : State) : Effect Unit :=
  if bytes.length = 0 then .raised .emptyProgram s
  else if bytes.length > 0x4000 then
    andThen (stBulk .prgl 0 (bytes.take 0x4000) s) fun _ s1 =>
      andThen (stBulk .prgu 0 ((bytes.take 0x8000).drop 0x4000) s1) fun _ s2 =>
        .done () { s2 with usel := .own }
  else
    andThen (stBulk .prgl 0 bytes s) fun _ s1 => .done () { s1 with usel := .aliased }

/-- `INSTALL bytes` (R180, R181). -/
def execInstall (bytes : List Byte) (s : State) : Host.Outcome State Fault Refusal :=
  whenLive s (finish (andThen (installProgram bytes s) fun _ s1 => .done .ok s1))

end Sys2Proof.Machine
end

