-- ==== Sys2Proof/Machine/Proxy.lean ====
section
/-! DEFINITION. The rows of `PXA16` (`30_encoding.md` R87): the two primitives of the proxy port. An address outside
`[0x2000, 0x2008)` raises `ProxyAddressOutOfRange` (`43_store_and_proxy.md` R209), which is taken. -/

namespace Sys2Proof.Machine

/-- `PX.RD p` (R206): the result is the byte the graphics unit answers. -/
def execPxRd (p : Addr) (s : State) : Host.Outcome State Fault Refusal :=
  whenLive s (finish (andThen (pxRead p s) fun v s1 => .done (.byte v) s1))

/-- `PX.WR p, v` (R207). -/
def execPxWr (p : Addr) (v : Byte) (s : State) : Host.Outcome State Fault Refusal :=
  whenLive s (finish (andThen (pxWrite p v s) fun _ s1 => .done .ok s1))

end Sys2Proof.Machine
end

