-- ==== Sys2Proof/Machine/Window.lean ====
section
/-! DEFINITION. The window rows of `A16` (`30_encoding.md` R86): one byte access, in the direction the port signals, at
an address of the row. The row gives the place itself; that it is the place the router finds is a statement. The issued
address is put together again from the row's fixed bits and fields, for the trace (`43_store_and_proxy.md` R210). -/

namespace Sys2Proof.Machine

/-- A byte access at a place a row gives, while FAULT is clear. -/
def windowAccess (T : Target) (a : Addr) (acc : Access) (s : State) : Host.Outcome State Fault Refusal :=
  whenLive s (finish (accessAt T a acc s))

/-- A byte access in the expansion window: the offset is a true subtraction, `a - 0x4020` (`41_bus_access.md` R156). -/
def expAccess (a : Addr) (acc : Access) (s : State) : Host.Outcome State Fault Refusal :=
  windowAccess (.cell .exp (a.toNat - 0x4020)) a acc s

/-- `WIN.RAM`: `RAM[a[10:0]]` (R153). -/
def execWinRam (acc : Access) (mirror : BitVec 2) (offset : BitVec 11) (s : State) : Host.Outcome State Fault Refusal :=
  windowAccess (.cell .ram offset.toNat) (0b000#3 ++ mirror ++ offset) acc s

/-- `WIN.PPU`: the proxy register `a[2:0]` (R154). -/
def execWinPpu (acc : Access) (mirror : BitVec 10) (reg : BitVec 3) (s : State) : Host.Outcome State Fault Refusal :=
  windowAccess (.ppu (proxyAddr reg)) (0b001#3 ++ mirror ++ reg) acc s

/-- `WIN.IOW`: `IOW[a[4:0]]`, plain storage (R155). -/
def execWinIow (acc : Access) (offset : BitVec 5) (s : State) : Host.Outcome State Fault Refusal :=
  windowAccess (.cell .iow offset.toNat) (0b01000000000#11 ++ offset) acc s

/-- `WIN.EXP.1`: addresses `0x4020` to `0x403F` (R156). -/
def execWinExp1 (acc : Access) (low : BitVec 5) (s : State) : Host.Outcome State Fault Refusal :=
  expAccess (0b01000000001#11 ++ low) acc s

/-- `WIN.EXP.2`: addresses `0x4040` to `0x407F` (R156). -/
def execWinExp2 (acc : Access) (low : BitVec 6) (s : State) : Host.Outcome State Fault Refusal :=
  expAccess (0b0100000001#10 ++ low) acc s

/-- `WIN.EXP.3`: addresses `0x4080` to `0x40FF` (R156). -/
def execWinExp3 (acc : Access) (low : BitVec 7) (s : State) : Host.Outcome State Fault Refusal :=
  expAccess (0b010000001#9 ++ low) acc s

/-- `WIN.EXP.4`: addresses `0x4100` to `0x41FF` (R156). -/
def execWinExp4 (acc : Access) (low : BitVec 8) (s : State) : Host.Outcome State Fault Refusal :=
  expAccess (0b01000001#8 ++ low) acc s

/-- `WIN.EXP.5`: addresses `0x4200` to `0x43FF` (R156). -/
def execWinExp5 (acc : Access) (low : BitVec 9) (s : State) : Host.Outcome State Fault Refusal :=
  expAccess (0b0100001#7 ++ low) acc s

/-- `WIN.EXP.6`: addresses `0x4400` to `0x47FF` (R156). -/
def execWinExp6 (acc : Access) (low : BitVec 10) (s : State) : Host.Outcome State Fault Refusal :=
  expAccess (0b010001#6 ++ low) acc s

/-- `WIN.EXP.7`: addresses `0x4800` to `0x4FFF` (R156). -/
def execWinExp7 (acc : Access) (low : BitVec 11) (s : State) : Host.Outcome State Fault Refusal :=
  expAccess (0b01001#5 ++ low) acc s

/-- `WIN.EXP.8`: addresses `0x5000` to `0x5FFF` (R156). -/
def execWinExp8 (acc : Access) (low : BitVec 12) (s : State) : Host.Outcome State Fault Refusal :=
  expAccess (0b0101#4 ++ low) acc s

/-- `WIN.EXP.9`: addresses `0x6000` to `0x7FFF` (R156). -/
def execWinExp9 (acc : Access) (low : BitVec 13) (s : State) : Host.Outcome State Fault Refusal :=
  expAccess (0b011#3 ++ low) acc s

/-- `WIN.PRGL`: `PRGL[a[13:0]]`, always (R157). Writes reach the store (R158). -/
def execWinPrgl (acc : Access) (offset : BitVec 14) (s : State) : Host.Outcome State Fault Refusal :=
  windowAccess (.cell .prgl offset.toNat) (0b10#2 ++ offset) acc s

/-- `WIN.PRGU`: `PRGU[a[13:0]]`, or `PRGL[a[13:0]]` in the alias state (R157). -/
def execWinPrgu (acc : Access) (offset : BitVec 14) (s : State) : Host.Outcome State Fault Refusal :=
  windowAccess (.cell (upperBank s.usel) offset.toNat) (0b11#2 ++ offset) acc s

end Sys2Proof.Machine
end

