-- ==== Sys2Proof/Machine/Dispatch.lean ====
section
/-! DEFINITION. The dispatch: one arm for each row of `spec/opcode_table.json`, in the table's order. -/

namespace Sys2Proof.Machine

/-- One instruction on a state. -/
def exec (i : Instr) (s : State) : Host.Outcome State Fault Refusal :=
  match i with
  | .rdb a => Sys2Proof.Machine.execRdb a s
  | .wrb a v => Sys2Proof.Machine.execWrb a v s
  | .rdw a => Sys2Proof.Machine.execRdw a s
  | .wrw a w => Sys2Proof.Machine.execWrw a w s
  | .install bytes => Sys2Proof.Machine.execInstall bytes s
  | .hdrdec input => Sys2Proof.Machine.execHdrdec input s
  | .winRam acc mirror offset => Sys2Proof.Machine.execWinRam acc mirror offset s
  | .winPpu acc mirror reg => Sys2Proof.Machine.execWinPpu acc mirror reg s
  | .winIow acc offset => Sys2Proof.Machine.execWinIow acc offset s
  | .winExp1 acc low => Sys2Proof.Machine.execWinExp1 acc low s
  | .winExp2 acc low => Sys2Proof.Machine.execWinExp2 acc low s
  | .winExp3 acc low => Sys2Proof.Machine.execWinExp3 acc low s
  | .winExp4 acc low => Sys2Proof.Machine.execWinExp4 acc low s
  | .winExp5 acc low => Sys2Proof.Machine.execWinExp5 acc low s
  | .winExp6 acc low => Sys2Proof.Machine.execWinExp6 acc low s
  | .winExp7 acc low => Sys2Proof.Machine.execWinExp7 acc low s
  | .winExp8 acc low => Sys2Proof.Machine.execWinExp8 acc low s
  | .winExp9 acc low => Sys2Proof.Machine.execWinExp9 acc low s
  | .winPrgl acc offset => Sys2Proof.Machine.execWinPrgl acc offset s
  | .winPrgu acc offset => Sys2Proof.Machine.execWinPrgu acc offset s
  | .pxRd p => Sys2Proof.Machine.execPxRd p s
  | .pxWr p v => Sys2Proof.Machine.execPxWr p v s
  | .hdrB0 b => Sys2Proof.Machine.execHdrB0 b s
  | .hdrB1 b => Sys2Proof.Machine.execHdrB1 b s
  | .hdrB2 b => Sys2Proof.Machine.execHdrB2 b s
  | .hdrB3 b => Sys2Proof.Machine.execHdrB3 b s
  | .hdrB4 lsb => Sys2Proof.Machine.execHdrB4 lsb s
  | .hdrB5 lsb => Sys2Proof.Machine.execHdrB5 lsb s
  | .hdrB6 mapperLo fourScreen trainer battery vertical => Sys2Proof.Machine.execHdrB6 mapperLo fourScreen trainer battery vertical s
  | .hdrB7Ext mid console => Sys2Proof.Machine.execHdrB7Ext mid console s
  | .hdrB7Leg00 mid flags => Sys2Proof.Machine.execHdrB7Leg00 mid flags s
  | .hdrB7Leg01 mid flags => Sys2Proof.Machine.execHdrB7Leg01 mid flags s
  | .hdrB7Leg11 mid flags => Sys2Proof.Machine.execHdrB7Leg11 mid flags s
  | .hdrB8 submapper mapperHi => Sys2Proof.Machine.execHdrB8 submapper mapperHi s
  | .hdrB9 chr prg => Sys2Proof.Machine.execHdrB9 chr prg s
  | .hdrB10 nvram ram => Sys2Proof.Machine.execHdrB10 nvram ram s
  | .hdrB11 nvram ram => Sys2Proof.Machine.execHdrB11 nvram ram s
  | .hdrB12 timing => Sys2Proof.Machine.execHdrB12 timing s
  | .hdrB13Vs hw ppu => Sys2Proof.Machine.execHdrB13Vs hw ppu s
  | .hdrB13Extcon console => Sys2Proof.Machine.execHdrB13Extcon console s
  | .hdrB13Ign => Sys2Proof.Machine.execHdrB13Ign s
  | .hdrB14 roms => Sys2Proof.Machine.execHdrB14 roms s
  | .hdrB15 device => Sys2Proof.Machine.execHdrB15 device s

end Sys2Proof.Machine
end

