-- ==== Sys2Proof/Machine/HostSeq.lean ====
section
/-! DEFINITION. The host's side of the block (`70_reset_and_hazards.md` R265 to R269): the layout of a cartridge file
and the load sequence LOADCART. It is host software; it reaches the block through HDRDEC and INSTALL only. -/

namespace Sys2Proof.Machine

/-- The length of the trainer block: 512 bytes if the flag is set, else 0 (R266). -/
def trainerLength (r : CartridgeHeader) : Nat :=
  if r.trainer then 512 else 0

/-- Where the program ROM data starts in the file: `p = 16 + T` (R267; decision D23: the trainer is skipped). -/
def programStart (r : CartridgeHeader) : Nat :=
  16 + trainerLength r

/-- The declared length of the program ROM data: `P = prg_rom_size * PRG_UNIT` (R267). -/
def programLength (cfg : Params) (r : CartridgeHeader) : Nat :=
  r.prgRomSize.toNat * cfg.prgUnit

/-- The declared length of the graphics ROM data: `G = chr_rom_size * CHR_UNIT` (R267). -/
def graphicsLength (cfg : Params) (r : CartridgeHeader) : Nat :=
  r.chrRomSize.toNat * cfg.chrUnit

/-- The program bytes, `file[p .. p + P)`, cut short at the end of the file (R267). -/
def programBytes (cfg : Params) (r : CartridgeHeader) (file : List Byte) : List Byte :=
  (file.drop (programStart r)).take (programLength cfg r)

/-- The graphics bytes, `file[p + P .. p + P + G)`, which go to the excluded graphics unit (R266, R267). -/
def graphicsBytes (cfg : Params) (r : CartridgeHeader) (file : List Byte) : List Byte :=
  (file.drop (programStart r + programLength cfg r)).take (graphicsLength cfg r)

/-- The command of the INSTALL that LOADCART issues. -/
def installTxn (bytes : List Byte) : Txn :=
  encode (.install bytes)

/-- LOADCART (R268): HDRDEC of the file's first 16 bytes; on a parse failure nothing more; else INSTALL of the program
bytes is issued, ahead of all else, so that the next step is that INSTALL. Log entry 8. -/
def loadCart (file : List Byte) (s : State) : Host.Outcome State Fault Refusal :=
  match execHdrdec (file.take 16) s with
  | .next s1 =>
    match headerDecode s.cfg.magic (file.take 16) with
    | .ok r => .next (issueFirst s1 (.txn (installTxn (programBytes s.cfg r file))))
    | .error _ => .next s1
  | stop => stop

end Sys2Proof.Machine
end

