-- ==== Sys2Proof/Machine/Step.lean ====
section
/-! DEFINITION. One step: the oldest request is taken and carried out. -/

namespace Sys2Proof.Machine

/-- One step. A transaction is decoded and executed, or refused by name; a reset powers the block on again; LOADCART
is the host's load sequence. With nothing issued the block is idle: its state stays as it is (log entry 1). A refused
request takes no step (`60_exceptions.md` R227, `30_encoding.md` R90), and the spec says no more of it; the model leaves it
where it is, the oldest of `pending`, so that nothing issued after it is taken, a reset neither. DESIGN CHOICE, safe: log
entry 1. -/
def step (s : State) : Host.Outcome State Fault Refusal :=
  match takeRequest s with
  | none => .next s
  | some (.txn t, s1) =>
    match decode t with
    | .ok i => exec i s1
    | .error e => .refused (decodeRefusal e)
  | some (.reset, s1) => .next (powerOn s1)
  | some (.loadCart file, s1) => loadCart file s1

/-- `s` with the instruction whose opcode-table bits are `w` issued ahead of all else, so that the next step takes it
(log entries 1 and 9). -/
def State.withFetchWord (s : State) (nbits w : Nat) : State :=
  match tableTxn nbits w with
  | none => s
  | some t => issueFirst s (.txn t)

end Sys2Proof.Machine
end

