-- ==== Sys2Proof/Safety.lean ====
section
/-! DEFINITION. What counts as a safe run, and the words the statements are written in. -/

namespace Sys2Proof.Machine

/-- No fatal fault is recorded: the premise of every claim about a program (`60_exceptions.md` R227). -/
def State.live (s : State) : Prop :=
  s.fault = none

/-- A run that reaches a state with FAULT set has gone wrong (R227). -/
def State.goneWrong (s : State) : Prop :=
  s.fault ≠ none

/-- An outcome is safe: it is not a stop, and it is not a state that has gone wrong. -/
def SafeOutcome : Host.Outcome State Fault Refusal → Prop
  | .next s => s.live
  | .fault _ => False
  | .refused _ => False

/-- The header record's invariants (`40_header_decode.md` R134). -/
structure CartridgeHeader.Valid (magic : IdTag) (r : CartridgeHeader) : Prop where
  tag : r.idTag = magic
  mirroring : r.mirrorHorizontal = !r.mirrorVertical
  ext : r.extValid = true ↔ r.version = .extended
  legacyMapper : r.version = .legacy → r.mapper.toNat < 256
  legacySizes : r.version = .legacy → r.prgRomSize.toNat < 256 ∧ r.chrRomSize.toNat < 256
  vsTypes : (r.vsPpuType.isSome ↔ r.version = .extended ∧ r.consoleType = 1#2) ∧
    (r.vsHwType.isSome ↔ r.version = .extended ∧ r.consoleType = 1#2)
  extConsole : r.extConsoleType.isSome ↔ r.version = .extended ∧ r.consoleType = 3#2
  ramSizes : ∀ z ∈ [r.prgRamSize, r.prgNvramSize, r.chrRamSize, r.chrNvramSize], ∀ n ∈ z,
    n = 0#22 ∨ ∃ k, 7 ≤ k ∧ k ≤ 21 ∧ n.toNat = 2 ^ k

/-- The trace after one more event: longer by it when the trace output is present (`43_store_and_proxy.md` R210). -/
def State.traced (s : State) (kind : AccessKind) (a : Addr) (region : Region) (v : Byte) : List TraceEvent :=
  if s.cfg.trace then s.trace ++ [⟨kind, a, region, v⟩] else s.trace

/-- The state after a byte access at a place, issued at the address `a`, with its result: what `41_bus_access.md` R160
and R161 say of a place in a store or of a proxy address, written out as a state. -/
def State.accessed (s : State) (T : Target) (a : Addr) (acc : Access) : State :=
  match T, acc with
  | .cell S o, .read =>
    { s with trace := s.traced .read a (.store S) (s.cell S o), results := s.results ++ [.byte (s.cell S o)] }
  | .cell S o, .write v =>
    { s.setCell S o v with trace := s.traced .write a (.store S) v, results := s.results ++ [.ok] }
  | .ppu p, .read =>
    { s with
      proxyLog := s.proxyLog ++ [.rd p]
      draws := s.draws + 1
      trace := s.traced .read a .ppu (Config.proxyAnswer s.draws s.proxyLog p)
      results := s.results ++ [.byte (Config.proxyAnswer s.draws s.proxyLog p)] }
  | .ppu p, .write v =>
    { s with
      proxyLog := s.proxyLog ++ [.wr p v]
      trace := s.traced .write a .ppu v
      results := s.results ++ [.ok] }

/-- What a header byte gives is what the record holds. An ignored byte gives no sub-type, and in a legacy record no extended
field at all (`40_header_decode.md` R130, R133). -/
def HeaderPart.agrees (p : HeaderPart) (r : CartridgeHeader) : Prop :=
  match p with
  | .idByte b => b ∈ [r.idTag.b0, r.idTag.b1, r.idTag.b2, r.idTag.b3]
  | .prgRomLsb v => r.prgRomLsb = v
  | .chrRomLsb v => r.chrRomLsb = v
  | .flags6 lo four trainer battery vertical horizontal mode =>
    r.mapper.toNat % 16 = lo.toNat ∧ r.fourScreen = four ∧ r.trainer = trainer ∧ r.battery = battery ∧
      r.mirrorVertical = vertical ∧ r.mirrorHorizontal = horizontal ∧ r.mirroringMode = mode
  | .flags7 version mid console vs pc10 =>
    r.version = version ∧ r.mapper.toNat / 16 % 16 = mid.toNat ∧ r.consoleType = console ∧ r.vsFlag = vs ∧
      r.pc10Flag = pc10
  | .mapperHigh submapper hi => r.submapper = some submapper ∧ r.mapper.toNat / 256 = hi.toNat
  | .romMsb chr prg =>
    r.chrRomMsb = chr ∧ r.prgRomMsb = prg ∧ r.chrRomSize.toNat / 256 = chr.toNat ∧ r.prgRomSize.toNat / 256 = prg.toNat
  | .prgRam nvShift shift nvSize size =>
    r.prgNvramShift = some nvShift ∧ r.prgRamShift = some shift ∧ r.prgNvramSize = some nvSize ∧
      r.prgRamSize = some size
  | .chrRam nvShift shift nvSize size =>
    r.chrNvramShift = some nvShift ∧ r.chrRamShift = some shift ∧ r.chrNvramSize = some nvSize ∧
      r.chrRamSize = some size
  | .timing t => r.timing = some t
  | .vsTypes hw ppu => r.vsHwType = some hw ∧ r.vsPpuType = some ppu ∧ r.extConsoleType = none
  | .extConsole t => r.extConsoleType = some t ∧ r.vsHwType = none ∧ r.vsPpuType = none
  | .ignored =>
    r.vsHwType = none ∧ r.vsPpuType = none ∧ r.extConsoleType = none ∧
      (r.version = .legacy →
        r.mapper.toNat < 256 ∧ r.prgRomMsb = 0#4 ∧ r.chrRomMsb = 0#4 ∧ r.submapper = none ∧ r.prgRamShift = none ∧
        r.prgNvramShift = none ∧ r.prgRamSize = none ∧ r.prgNvramSize = none ∧ r.chrRamShift = none ∧
        r.chrNvramShift = none ∧ r.chrRamSize = none ∧ r.chrNvramSize = none ∧ r.timing = none ∧
        r.miscRoms = none ∧ r.expansionDevice = none)
  | .miscRoms n => r.miscRoms = some n
  | .expansion d => r.expansionDevice = some d

/-- The same block without the trace output. -/
def State.untraced (s : State) : State :=
  { s with cfg := { s.cfg with trace := false }, trace := [] }

/-- An outcome with its state changed. -/
def mapNext (f : State → State) : Host.Outcome State Fault Refusal → Host.Outcome State Fault Refusal
  | .next s => .next (f s)
  | .fault r => .fault r
  | .refused r => .refused r

end Sys2Proof.Machine
end

