-- ==== Sys2Proof/Certificates/Slice0/Obligations.lean ====
section
/-! DEFINITION. The statements for the provers. H[i] is written `input.getD i 0#8`; `b[7:4]` is `b.extractLsb' 4 4`. The
rules R<n> are those of spec/. -/

open Sys2Proof Sys2Proof.Machine

/-! ## Encoding and decoding -/

/-- Decoding the encoding of an instruction gives it back, with every operand at every value (R81, R86, R87, R88). -/
def Obligations.DecodeInvertsEncode : Prop :=
  ∀ i : Instr, decode (encode i) = .ok i

/-- The six command words, whatever their ignored bits hold (R88, R89). -/
def Obligations.CommandWordsSelectOperations : Prop :=
  ∀ (addr data : BitVec 16) (bytes : List Byte),
    decode (.cmd (0x0#4 ++ addr ++ data) bytes) = .ok (.rdb addr) ∧
    decode (.cmd (0x1#4 ++ addr ++ data) bytes) = .ok (.wrb addr (data.extractLsb' 0 8)) ∧
    decode (.cmd (0x2#4 ++ addr ++ data) bytes) = .ok (.rdw addr) ∧
    decode (.cmd (0x3#4 ++ addr ++ data) bytes) = .ok (.wrw addr data) ∧
    decode (.cmd (0x4#4 ++ addr ++ data) bytes) = .ok (.install bytes) ∧
    decode (.cmd (0x5#4 ++ addr ++ data) bytes) = .ok (.hdrdec bytes)

/-- Codes 0x6 to 0xF select no operation: the decoder says so and the step refuses them by name (R90). -/
def Obligations.ReservedCodesAreRefused : Prop :=
  ∀ (s : State) (word : BitVec 36) (bytes : List Byte) (rest : List Request),
    0x6 ≤ (word.extractLsb' 32 4).toNat →
    decode (.cmd word bytes) = .error (.reservedOpcode (word.extractLsb' 32 4)) ∧
    step { s with pending := .txn (.cmd word bytes) :: rest } = .refused (.reservedOpcode (word.extractLsb' 32 4))

/-- Every address matches exactly one of the fourteen rows, and the decoder gives that row's instruction (R86). -/
def Obligations.WindowRowsPartitionAddresses : Prop :=
  ∀ (a : Addr) (acc : Access),
    (busRows.filter fun r => a &&& r.1 == r.2).length = 1 ∧
    (Txn.bus a acc).matchesRow (tableRow (decodeBus a acc)).1 (tableRow (decodeBus a acc)).2 = true ∧
    encode (decodeBus a acc) = .bus a acc

/-- A few words written out from R81, R86, R87 and R89 decode to what they stand for. -/
def Obligations.WrittenOutWordsDecode : Prop :=
  decode (.cmd 0x1000501AB#36 []) = .ok (.wrb 0x0005#16 0xAB#8) ∧
  decode (.cmd 0x20810FFFF#36 []) = .ok (.rdw 0x0810#16) ∧
  decode (.bus 0x1805#16 .read) = .ok (.winRam .read 3#2 0x005#11) ∧
  decode (.bus 0x403F#16 (.write 7#8)) = .ok (.winExp1 (.write 7#8) 0x1F#5) ∧
  decode (.proxy 0x2006#16 (.write 0x3F#8)) = .ok (.pxWr 0x2006#16 0x3F#8) ∧
  decode (.header 6 0x48#8 0x13#8) = .ok (.hdrB6 1#4 false false true true) ∧
  decode (.header 13 0x09#8 0x52#8) = .ok (.hdrB13Vs 5#4 2#4)

/-- Bytes 8 to 15 of a legacy header are not decoded but ignored, whatever they hold (R84, R133): the step that is given one
completes, gives no field back and changes nothing else. That a byte alone is an instruction is the model's choice, log entry
12, and that it answers with FAULT set too is log entry 7's reading. -/
def Obligations.LegacyHeaderBytesAreNotDecoded : Prop :=
  ∀ (s : State) (index : Fin 16) (h7 b : Byte) (rest : List Request),
    8 ≤ index.val → h7.extractLsb' 2 2 ≠ 0b10#2 →
    step { s with pending := .txn (.header index h7 b) :: rest } =
      .next { s with pending := rest, results := s.results ++ [.part .ignored] }

/-! ## The router -/

/-- The address the block presents to the proxy (R87): the bus address reduced modulo 8, one of 0x2000 to 0x2007, its
low three bits those of the bus address. -/
def Obligations.ProxyAddressIsReducedModuloEight : Prop :=
  ∀ (usel : BankSelect) (a : Addr), 0x2000 ≤ a.toNat → a.toNat < 0x4000 →
    ∃ p : Addr, route usel a = .ppu p ∧ p.toNat = 0x2000 + (a.toNat - 0x2000) % 8 ∧
      p.extractLsb' 3 13 = 0b0010000000000#13 ∧ p.extractLsb' 0 3 = a.extractLsb' 0 3

/-- Every offset the router gives is inside its store, every proxy address inside the proxy's range, and so no access
operation raises a fatal fault (R159). -/
def Obligations.RoutedOffsetsAreInsideTheirStores : Prop :=
  (∀ (usel : BankSelect) (a : Addr),
    match route usel a with
    | .cell .ram o => o < 0x0800
    | .cell .iow o => o < 0x20
    | .cell .exp o => o < 0x3FE0
    | .cell .prgl o => o < 0x4000
    | .cell .prgu o => o < 0x4000
    | .ppu p => 0x2000 ≤ p.toNat ∧ p.toNat < 0x2008) ∧
  (∀ (s : State) (a : Addr) (v : Byte) (w : Word), s.fault = none →
    ∀ i ∈ [Instr.rdb a, .wrb a v, .rdw a, .wrw a w], ∃ t, exec i s = .next t ∧ t.fault = none)

/-- The decode in bit form (R152). -/
def Obligations.RouteInBitForm : Prop :=
  ∀ (usel : BankSelect) (a : Addr),
    (a.extractLsb' 13 3 = 0b000#3 → route usel a = .cell .ram (a.extractLsb' 0 11).toNat) ∧
    (a.extractLsb' 13 3 = 0b001#3 → route usel a = .ppu (0b0010000000000#13 ++ a.extractLsb' 0 3)) ∧
    (a.extractLsb' 5 11 = 0b01000000000#11 → a &&& 0xFFE0#16 = 0x4000#16 ∧
      route usel a = .cell .iow (a.extractLsb' 0 5).toNat) ∧
    (a.extractLsb' 14 2 = 0b01#2 → a.extractLsb' 5 11 ≠ 0b01000000000#11 →
      0x4020 ≤ a.toNat ∧ route usel a = .cell .exp (a.toNat - 0x4020)) ∧
    (a.extractLsb' 14 2 = 0b10#2 → route usel a = .cell .prgl (a.extractLsb' 0 14).toNat) ∧
    (a.extractLsb' 14 2 = 0b11#2 →
      route usel a = .cell (match usel with | .own => .prgu | .aliased => .prgl) (a.extractLsb' 0 14).toNat)

/-- The seven word accesses that straddle a boundary: where the two bytes lie (R164). -/
def Obligations.StraddlingWordsSplitWhereTheTableSays : Prop :=
  ∀ usel : BankSelect,
    let upper : Store := match usel with | .own => .prgu | .aliased => .prgl
    (route usel 0x07FF#16 = .cell .ram 0x7FF ∧ route usel (nextAddr 0x07FF#16) = .cell .ram 0x000) ∧
    (route usel 0x1FFF#16 = .cell .ram 0x7FF ∧ route usel (nextAddr 0x1FFF#16) = .ppu 0x2000#16) ∧
    (route usel 0x3FFF#16 = .ppu 0x2007#16 ∧ route usel (nextAddr 0x3FFF#16) = .cell .iow 0x00) ∧
    (route usel 0x401F#16 = .cell .iow 0x1F ∧ route usel (nextAddr 0x401F#16) = .cell .exp 0x0000) ∧
    (route usel 0x7FFF#16 = .cell .exp 0x3FDF ∧ route usel (nextAddr 0x7FFF#16) = .cell .prgl 0x0000) ∧
    (route usel 0xBFFF#16 = .cell .prgl 0x3FFF ∧ route usel (nextAddr 0xBFFF#16) = .cell upper 0x0000) ∧
    (route usel 0xFFFF#16 = .cell upper 0x3FFF ∧ route usel (nextAddr 0xFFFF#16) = .cell .ram 0x000)

/-! ## The four access operations -/

/-- RDB (R160): while FAULT is clear it answers the byte of the cell the address is routed to, or the proxy's answer,
with one trace event when the trace is present, and changes nothing else. Completes RDB. -/
def Obligations.ReadByteAnswersTheRoutedPlace : Prop :=
  ∀ (s : State) (a : Addr), s.fault = none →
    exec (.rdb a) s = .next (s.accessed (route s.usel a) a .read)

/-- WRB (R161): while FAULT is clear it writes exactly the cell the address is routed to, or hands the byte to the proxy.
Completes WRB. -/
def Obligations.WriteByteReachesTheRoutedPlace : Prop :=
  ∀ (s : State) (a : Addr) (v : Byte), s.fault = none →
    exec (.wrb a v) s = .next (s.accessed (route s.usel a) a (.write v))

/-- RDW (R162): RDB of the address, then RDB of the next, the first byte low, the second high. Completes RDW. -/
def Obligations.ReadWordIsTwoByteReads : Prop :=
  ∀ (s : State) (a : Addr), s.fault = none →
    ∃ (s1 s2 : State) (lo hi : Byte),
      exec (.rdb a) s = .next s1 ∧ s1.results = s.results ++ [.byte lo] ∧
      exec (.rdb (a + 1#16)) s1 = .next s2 ∧ s2.results = s1.results ++ [.byte hi] ∧
      exec (.rdw a) s = .next { s2 with results := s.results ++ [.word (hi ++ lo)] }

/-- WRW (R163): WRB of the low byte at the address, then WRB of the high byte at the next. Completes WRW. -/
def Obligations.WriteWordIsTwoByteWrites : Prop :=
  ∀ (s : State) (a : Addr) (w : Word), s.fault = none →
    ∃ s1 s2 : State,
      exec (.wrb a (w.extractLsb' 0 8)) s = .next s1 ∧
      exec (.wrb (a + 1#16) (w.extractLsb' 8 8)) s1 = .next s2 ∧
      exec (.wrw a w) s = .next { s2 with results := s.results ++ [.ok] }

/-- A word access is little-endian (R50): a word written is found byte by byte, low byte at the address; two bytes written
are read as the word. Both addresses are routed to stores (behind the proxy nothing is known of a read). -/
def Obligations.WordsAreLittleEndian : Prop :=
  ∀ (s : State) (a : Addr) (w : Word) (S S' : Store) (o o' : Nat), s.fault = none →
    route s.usel a = .cell S o → route s.usel (a + 1#16) = .cell S' o' →
    (∃ t, exec (.wrw a w) s = .next t ∧ t.cell S o = w.extractLsb' 0 8 ∧ t.cell S' o' = w.extractLsb' 8 8 ∧
      (∃ u, exec (.rdb a) t = .next u ∧ u.results = t.results ++ [.byte (w.extractLsb' 0 8)]) ∧
      (∃ u, exec (.rdb (a + 1#16)) t = .next u ∧ u.results = t.results ++ [.byte (w.extractLsb' 8 8)])) ∧
    (∃ t1 t2 u, exec (.wrb a (w.extractLsb' 0 8)) s = .next t1 ∧
      exec (.wrb (a + 1#16) (w.extractLsb' 8 8)) t1 = .next t2 ∧
      exec (.rdw a) t2 = .next u ∧ u.results = t2.results ++ [.word w])

/-- A word access at 0xFFFF has its high byte at 0x0000, in RAM (R54). -/
def Obligations.WordAtTheTopWrapsToZero : Prop :=
  ∀ (s : State) (w : Word), s.fault = none →
    let upper : Store := match s.usel with | .own => .prgu | .aliased => .prgl
    (∃ t, exec (.wrw 0xFFFF#16 w) s = .next t ∧ t.cell upper 0x3FFF = w.extractLsb' 0 8 ∧
      t.cell .ram 0 = w.extractLsb' 8 8) ∧
    (∃ t, exec (.rdw 0xFFFF#16) s = .next t ∧
      t.results = s.results ++ [.word (s.cell .ram 0 ++ s.cell upper 0x3FFF)])

/-- A word access inside the proxy window is two proxy accesses, to two registers, low address first (R163, R270, R272),
and changes no cell. -/
def Obligations.ProxyWordsAreTwoEventsInOrder : Prop :=
  ∀ (s : State) (a : Addr) (w : Word), s.fault = none → 0x2000 ≤ a.toNat → a.toNat < 0x3FFF →
    ∃ p q : Addr, p.toNat = 0x2000 + a.toNat % 8 ∧ q.toNat = 0x2000 + (a.toNat + 1) % 8 ∧
      (∃ t, exec (.wrw a w) s = .next t ∧
        t.proxyLog = s.proxyLog ++ [.wr p (w.extractLsb' 0 8), .wr q (w.extractLsb' 8 8)] ∧
        ∀ S o, t.cell S o = s.cell S o) ∧
      (∃ t, exec (.rdw a) s = .next t ∧ t.proxyLog = s.proxyLog ++ [.rd p, .rd q] ∧
        ∀ S o, t.cell S o = s.cell S o)

/-- System RAM is seen four times (R153): what is written at one of the four addresses is read at every one of them. -/
def Obligations.RamMirrorsAreOneCell : Prop :=
  ∀ (s : State) (a a' : Addr) (v : Byte), s.fault = none → a.toNat < 0x2000 → a'.toNat < 0x2000 →
    a.extractLsb' 0 11 = a'.extractLsb' 0 11 →
    route s.usel a = .cell .ram (a.extractLsb' 0 11).toNat ∧
    ∃ t u, exec (.wrb a v) s = .next t ∧ t.cell .ram (a.toNat % 0x0800) = v ∧
      exec (.rdb a') t = .next u ∧ u.results = t.results ++ [.byte v]

/-- The two program windows (R157): the lower always reaches PRGL, the upper PRGU or, in the alias state, PRGL; in the
alias state a write through either window is read through the other, in the own state a write through one leaves what
the other reads. -/
def Obligations.UpperWindowFollowsTheBankSelect : Prop :=
  ∀ (s : State) (k : Nat) (v : Byte), s.fault = none → k < 0x4000 →
    route s.usel (BitVec.ofNat 16 (0x8000 + k)) = .cell .prgl k ∧
    (s.usel = .aliased →
      route s.usel (BitVec.ofNat 16 (0xC000 + k)) = .cell .prgl k ∧
      (∃ t u, exec (.wrb (BitVec.ofNat 16 (0xC000 + k)) v) s = .next t ∧
        exec (.rdb (BitVec.ofNat 16 (0x8000 + k))) t = .next u ∧ u.results = t.results ++ [.byte v]) ∧
      (∃ t u, exec (.wrb (BitVec.ofNat 16 (0x8000 + k)) v) s = .next t ∧
        exec (.rdb (BitVec.ofNat 16 (0xC000 + k))) t = .next u ∧ u.results = t.results ++ [.byte v])) ∧
    (s.usel = .own →
      route s.usel (BitVec.ofNat 16 (0xC000 + k)) = .cell .prgu k ∧
      (∃ t, exec (.wrb (BitVec.ofNat 16 (0x8000 + k)) v) s = .next t ∧ t.cell .prgu k = s.cell .prgu k) ∧
      (∃ t, exec (.wrb (BitVec.ofNat 16 (0xC000 + k)) v) s = .next t ∧ t.cell .prgl k = s.cell .prgl k))

/-- A write to a program window reaches the store, and every later read of that cell, through either window, returns it
(R158). -/
def Obligations.ProgramWindowWritesReachTheStore : Prop :=
  ∀ (s : State) (a : Addr) (v : Byte), s.fault = none → 0x8000 ≤ a.toNat →
    ∃ S o t, route s.usel a = .cell S o ∧ exec (.wrb a v) s = .next t ∧ t.fault = none ∧ t.proxyLog = s.proxyLog ∧
      t.usel = s.usel ∧ t.cell S o = v ∧
      ∀ a', route t.usel a' = .cell S o → ∃ u, exec (.rdb a') t = .next u ∧ u.results = t.results ++ [.byte v]

/-- Repeating a read of a store cell returns the same byte, and repeating a write leaves the same cells (R58). -/
def Obligations.StoreAccessesAreIdempotent : Prop :=
  ∀ (s : State) (a : Addr) (v : Byte) (S : Store) (o : Nat), s.fault = none → route s.usel a = .cell S o →
    (∃ t u b, exec (.rdb a) s = .next t ∧ t.results = s.results ++ [.byte b] ∧
      exec (.rdb a) t = .next u ∧ u.results = t.results ++ [.byte b]) ∧
    (∃ t u, exec (.wrb a v) s = .next t ∧ exec (.wrb a v) t = .next u ∧
      u.proxyLog = t.proxyLog ∧ u.usel = t.usel ∧ ∀ S' o', u.cell S' o' = t.cell S' o')

/-! ## Frames of the accesses -/

/-- What RDB and RDW leave unchanged (R57, R160, R162): every cell, USEL, FAULT, the parameters, the session, what is
pending; and the proxy's history when no byte lies in its window. -/
def Obligations.ReadFrame : Prop :=
  ∀ (s t : State) (a : Addr),
    (exec (.rdb a) s = .next t →
      (∀ S o, t.cell S o = s.cell S o) ∧ t.usel = s.usel ∧ t.fault = s.fault ∧ t.cfg = s.cfg ∧
      t.session = s.session ∧ t.pending = s.pending ∧
      ((∃ S o, route s.usel a = .cell S o) → t.proxyLog = s.proxyLog ∧ t.draws = s.draws)) ∧
    (exec (.rdw a) s = .next t →
      (∀ S o, t.cell S o = s.cell S o) ∧ t.usel = s.usel ∧ t.fault = s.fault ∧ t.cfg = s.cfg ∧
      t.session = s.session ∧ t.pending = s.pending ∧
      ((∃ S o, route s.usel a = .cell S o) → (∃ S o, route s.usel (nextAddr a) = .cell S o) →
        t.proxyLog = s.proxyLog ∧ t.draws = s.draws))

/-- What WRB and WRW leave unchanged (R161, R163): every cell but those the address, and for WRW the next address, is
routed to; USEL, FAULT, the parameters, the session, the count of proxy reads, what is pending; and the proxy's history
when no byte lies in its window. -/
def Obligations.WriteFrame : Prop :=
  ∀ (s t : State) (a : Addr),
    (∀ v, exec (.wrb a v) s = .next t →
      (∀ S o, route s.usel a ≠ .cell S o → t.cell S o = s.cell S o) ∧
      t.usel = s.usel ∧ t.fault = s.fault ∧ t.cfg = s.cfg ∧ t.session = s.session ∧ t.draws = s.draws ∧
      t.pending = s.pending ∧ ((∃ S o, route s.usel a = .cell S o) → t.proxyLog = s.proxyLog)) ∧
    (∀ w, exec (.wrw a w) s = .next t →
      (∀ S o, route s.usel a ≠ .cell S o → route s.usel (nextAddr a) ≠ .cell S o → t.cell S o = s.cell S o) ∧
      t.usel = s.usel ∧ t.fault = s.fault ∧ t.cfg = s.cfg ∧ t.session = s.session ∧ t.draws = s.draws ∧
      t.pending = s.pending ∧
      ((∃ S o, route s.usel a = .cell S o) → (∃ S o, route s.usel (nextAddr a) = .cell S o) →
        t.proxyLog = s.proxyLog))

/-! ## The window rows and the proxy rows -/

/-- Each of the fourteen window rows accesses the place its row names, at the address its bits spell (R153 to R157).
That a row is one byte access is the model's choice (log entry 12). Completes WIN.RAM, WIN.PPU, WIN.IOW,
WIN.EXP.1 to WIN.EXP.9, WIN.PRGL, WIN.PRGU. -/
def Obligations.WindowRowsAccessTheirPlaces : Prop :=
  ∀ (s : State) (acc : Access), s.fault = none →
    (∀ (m : BitVec 2) (o : BitVec 11),
      exec (.winRam acc m o) s = .next (s.accessed (.cell .ram o.toNat) (0b000#3 ++ m ++ o) acc)) ∧
    (∀ (m : BitVec 10) (r : BitVec 3),
      exec (.winPpu acc m r) s = .next (s.accessed (.ppu (0b0010000000000#13 ++ r)) (0b001#3 ++ m ++ r) acc)) ∧
    (∀ o : BitVec 5, exec (.winIow acc o) s = .next (s.accessed (.cell .iow o.toNat) (0b01000000000#11 ++ o) acc)) ∧
    (∀ o : BitVec 5, exec (.winExp1 acc o) s = .next (s.accessed (.cell .exp o.toNat) (0b01000000001#11 ++ o) acc)) ∧
    (∀ o : BitVec 6,
      exec (.winExp2 acc o) s = .next (s.accessed (.cell .exp (0x20 + o.toNat)) (0b0100000001#10 ++ o) acc)) ∧
    (∀ o : BitVec 7,
      exec (.winExp3 acc o) s = .next (s.accessed (.cell .exp (0x60 + o.toNat)) (0b010000001#9 ++ o) acc)) ∧
    (∀ o : BitVec 8,
      exec (.winExp4 acc o) s = .next (s.accessed (.cell .exp (0xE0 + o.toNat)) (0b01000001#8 ++ o) acc)) ∧
    (∀ o : BitVec 9,
      exec (.winExp5 acc o) s = .next (s.accessed (.cell .exp (0x1E0 + o.toNat)) (0b0100001#7 ++ o) acc)) ∧
    (∀ o : BitVec 10,
      exec (.winExp6 acc o) s = .next (s.accessed (.cell .exp (0x3E0 + o.toNat)) (0b010001#6 ++ o) acc)) ∧
    (∀ o : BitVec 11,
      exec (.winExp7 acc o) s = .next (s.accessed (.cell .exp (0x7E0 + o.toNat)) (0b01001#5 ++ o) acc)) ∧
    (∀ o : BitVec 12,
      exec (.winExp8 acc o) s = .next (s.accessed (.cell .exp (0xFE0 + o.toNat)) (0b0101#4 ++ o) acc)) ∧
    (∀ o : BitVec 13,
      exec (.winExp9 acc o) s = .next (s.accessed (.cell .exp (0x1FE0 + o.toNat)) (0b011#3 ++ o) acc)) ∧
    (∀ o : BitVec 14, exec (.winPrgl acc o) s = .next (s.accessed (.cell .prgl o.toNat) (0b10#2 ++ o) acc)) ∧
    (∀ o : BitVec 14, exec (.winPrgu acc o) s = .next
      (s.accessed (.cell (match s.usel with | .own => .prgu | .aliased => .prgl) o.toNat) (0b11#2 ++ o) acc))

/-- The row an address matches does what RDB and WRB do at that address (R86, R150, R160, R161; log entry 12). -/
def Obligations.WindowRowsAreTheByteAccesses : Prop :=
  ∀ (s : State) (a : Addr),
    exec (decodeBus a .read) s = exec (.rdb a) s ∧ ∀ v, exec (decodeBus a (.write v)) s = exec (.wrb a v) s

/-- What a window row leaves unchanged: every cell but the one its address is routed to, and that one too when it reads;
USEL, FAULT, the parameters, the session, what is pending; the proxy's history unless its row is WIN.PPU. R57 says what one
byte access changes; that a row of R86 is such an access is the model's choice (log entry 12). -/
def Obligations.WindowRowFrame : Prop :=
  ∀ (s t : State) (i : Instr) (a : Addr) (acc : Access), encode i = .bus a acc → exec i s = .next t →
    (∀ S o, acc = .read ∨ route s.usel a ≠ .cell S o → t.cell S o = s.cell S o) ∧
    t.usel = s.usel ∧ t.fault = s.fault ∧ t.cfg = s.cfg ∧ t.session = s.session ∧ t.pending = s.pending ∧
    ((∃ S o, route s.usel a = .cell S o) → t.proxyLog = s.proxyLog ∧ t.draws = s.draws)

/-- PX.RD (R206): inside the proxy's range the event is recorded and the answer given back, a free value; outside it
ProxyAddressOutOfRange is taken and nothing else happens (log entries 3, 6 and 12). No cell changes. Completes PX.RD. -/
def Obligations.ProxyReadRecordsAndAnswers : Prop :=
  ∀ (s : State) (p : Addr), s.fault = none →
    exec (.pxRd p) s =
      if 0x2000 ≤ p.toNat ∧ p.toNat ≤ 0x2007 then
        .next { s with
          proxyLog := s.proxyLog ++ [.rd p]
          draws := s.draws + 1
          results := s.results ++ [.byte (Config.proxyAnswer s.draws s.proxyLog p)] }
      else .next { s with fault := some (.proxyAddressOutOfRange p) }

/-- PX.WR (R207): inside the proxy's range the event is recorded; outside it ProxyAddressOutOfRange is taken (log
entries 6 and 12). No cell changes. Completes PX.WR. -/
def Obligations.ProxyWriteRecordsTheEvent : Prop :=
  ∀ (s : State) (p : Addr) (v : Byte), s.fault = none →
    exec (.pxWr p v) s =
      if 0x2000 ≤ p.toNat ∧ p.toNat ≤ 0x2007 then
        .next { s with proxyLog := s.proxyLog ++ [.wr p v], results := s.results ++ [.ok] }
      else .next { s with fault := some (.proxyAddressOutOfRange p) }

/-! ## The store primitives -/

/-- ST.RD, ST.WR, ST.BULK (R200, R201, R202): each is bounds-checked; in bounds it reads or writes exactly its cells; out
of bounds it raises StoreOffsetOutOfRange with the store and the offset, and writes nothing. That ST.BULK checks its whole
run before any byte is written is the spec's own inference from the fail-fast rule R203 (R202: "derived: from the fail-fast
requirement of rule R203"). -/
def Obligations.StorePrimitivesAreBoundsChecked : Prop :=
  ∀ (s : State) (S : Store) (o : Nat) (v : Byte) (bytes : List Byte),
    (o < cap S → stRead S o s = .done (s.cell S o) s) ∧
    (cap S ≤ o → stRead S o s = .raised (.storeOffsetOutOfRange S o) s) ∧
    (o < cap S → ∃ t, stWrite S o v s = .done () t ∧
      (∀ S' o', t.cell S' o' = if S' = S ∧ o' = o then v else s.cell S' o') ∧
      t.usel = s.usel ∧ t.fault = s.fault ∧ t.proxyLog = s.proxyLog) ∧
    (cap S ≤ o → stWrite S o v s = .raised (.storeOffsetOutOfRange S o) s) ∧
    (o + bytes.length ≤ cap S → ∃ t, stBulk S o bytes s = .done () t ∧
      (∀ S' o', t.cell S' o' =
        if S' = S ∧ o ≤ o' ∧ o' < o + bytes.length then bytes.getD (o' - o) 0#8 else s.cell S' o') ∧
      t.usel = s.usel ∧ t.fault = s.fault ∧ t.proxyLog = s.proxyLog) ∧
    (cap S < o + bytes.length →
      stBulk S o bytes s = .raised (.storeOffsetOutOfRange S (o + bytes.length - 1)) s)

/-! ## INSTALL -/

/-- INSTALL of the empty sequence (R185): the fatal fault EmptyProgram is taken and no other state is touched; any non-empty
sequence is accepted. -/
def Obligations.InstallOfNothingIsAFatalFault : Prop :=
  ∀ s : State, s.fault = none →
    exec (.install []) s = .next { s with fault := some .emptyProgram } ∧
    ∀ bytes, bytes ≠ [] →
      ∃ t, exec (.install bytes) s = .next t ∧ t.fault = none ∧ t.results = s.results ++ [.ok]

/-- INSTALL of 1 to 16384 bytes (R183): they fill PRGL from 0, the rest of PRGL and all of PRGU keep what they held, USEL
is ALIAS, no address reaches PRGU, and the two program windows read the same byte at every offset and see each other's
writes. Completes INSTALL. -/
def Obligations.SmallInstallAliasesTheUpperWindow : Prop :=
  ∀ (s : State) (bytes : List Byte), s.fault = none → 1 ≤ bytes.length → bytes.length ≤ 0x4000 →
    ∃ t, exec (.install bytes) s = .next t ∧ t.results = s.results ++ [.ok] ∧ t.usel = .aliased ∧
      (∀ k, k < bytes.length → t.cell .prgl k = bytes.getD k 0#8) ∧
      (∀ k, bytes.length ≤ k → t.cell .prgl k = s.cell .prgl k) ∧
      (∀ k, t.cell .prgu k = s.cell .prgu k) ∧ (∀ a k, route t.usel a ≠ .cell .prgu k) ∧
      ∀ k, k < 0x4000 → ∀ a ∈ [BitVec.ofNat 16 (0x8000 + k), BitVec.ofNat 16 (0xC000 + k)],
        route t.usel a = .cell .prgl k ∧
        (∃ u, exec (.rdb a) t = .next u ∧ u.results = t.results ++ [.byte (t.cell .prgl k)]) ∧
        ∀ v, ∃ u, exec (.wrb a v) t = .next u ∧ u.usel = .aliased ∧ u.cell .prgl k = v

/-- INSTALL of more than 16384 bytes (R181, R182, R184): the first 16 KB fill PRGL, the next up to 16 KB go to PRGU from 0,
the rest of PRGU keeps what it held, USEL is OWN. Completes INSTALL. -/
def Obligations.LargeInstallFillsBothBanks : Prop :=
  ∀ (s : State) (bytes : List Byte), s.fault = none → 0x4000 < bytes.length →
    ∃ t, exec (.install bytes) s = .next t ∧ t.results = s.results ++ [.ok] ∧ t.usel = .own ∧
      (∀ k, k < 0x4000 → t.cell .prgl k = bytes.getD k 0#8) ∧
      (∀ k, k < 0x4000 → 0x4000 + k < bytes.length → t.cell .prgu k = bytes.getD (0x4000 + k) 0#8) ∧
      (∀ k, bytes.length ≤ 0x4000 + k → t.cell .prgu k = s.cell .prgu k)

/-- Bytes beyond 32 KB are dropped (R182): with them or without them INSTALL does the same, and it is no error. -/
def Obligations.BytesBeyondBothBanksAreDropped : Prop :=
  ∀ (s : State) (bytes : List Byte), 0x8000 < bytes.length →
    exec (.install bytes) s = exec (.install (bytes.take 0x8000)) s ∧
    (s.fault = none → ∃ t, exec (.install bytes) s = .next t ∧ t.fault = none ∧
      ∀ k, k < 0x4000 → t.cell .prgl k = bytes.getD k 0#8 ∧ t.cell .prgu k = bytes.getD (0x4000 + k) 0#8)

/-- What INSTALL of a non-empty sequence leaves unchanged (R181, R186): every cell of RAM, IOW and EXP, every cell of the
banks at or beyond the bytes supplied, FAULT, the proxy's history, the trace, the parameters, the session, what is
pending. -/
def Obligations.InstallFrame : Prop :=
  ∀ (s t : State) (bytes : List Byte), bytes ≠ [] → exec (.install bytes) s = .next t →
    (∀ S o, S = .ram ∨ S = .iow ∨ S = .exp ∨ (S = .prgl ∧ min bytes.length 0x4000 ≤ o) ∨
      (S = .prgu ∧ min bytes.length 0x8000 ≤ 0x4000 + o) → t.cell S o = s.cell S o) ∧
    t.fault = s.fault ∧ t.proxyLog = s.proxyLog ∧ t.draws = s.draws ∧ t.trace = s.trace ∧ t.cfg = s.cfg ∧
    t.session = s.session ∧ t.pending = s.pending

/-! ## HDRDEC -/

/-- HDRDEC answers in every state, FAULT set or not, with the record or the parse failure that the pure decoder gives its
input, and changes nothing else (R110, R135, R221; that it answers with FAULT set is log entry 7's reading). Completes
HDRDEC. -/
def Obligations.HeaderDecodeAnswersInEveryState : Prop :=
  ∀ (s : State) (input : List Byte),
    (∀ r, headerDecode s.cfg.magic input = .ok r →
      exec (.hdrdec input) s = .next { s with results := s.results ++ [.header r] }) ∧
    (∀ e, headerDecode s.cfg.magic input = .error e →
      exec (.hdrdec input) s = .next { s with results := s.results ++ [.parseFailure e] })

/-- The length check, made first (R111): fewer than 16 bytes are TruncatedHeader whatever they are, and of more than 16
only the first 16 count. -/
def Obligations.ShortHeadersAreTruncatedAndLongOnesCut : Prop :=
  ∀ (magic : IdTag) (input : List Byte),
    (input.length < 16 → headerDecode magic input = .error .truncatedHeader) ∧
    (16 ≤ input.length → headerDecode magic input ≠ .error .truncatedHeader ∧
      headerDecode magic input = headerDecode magic (input.take 16))

/-- The identification check, made second (R112): InvalidFormat exactly when one of the four bytes differs from MAGIC; a
record's tag is MAGIC; and MAGIC is by default 4E 45 53 1A. -/
def Obligations.WrongIdentificationIsInvalidFormat : Prop :=
  State.reset.cfg.magic = ⟨0x4E#8, 0x45#8, 0x53#8, 0x1A#8⟩ ∧
  ∀ (magic : IdTag) (input : List Byte), 16 ≤ input.length →
    (headerDecode magic input = .error .invalidFormat ↔
      input.getD 0 0#8 ≠ magic.b0 ∨ input.getD 1 0#8 ≠ magic.b1 ∨ input.getD 2 0#8 ≠ magic.b2 ∨
        input.getD 3 0#8 ≠ magic.b3) ∧
    (∀ r, headerDecode magic input = .ok r →
      r.idTag = ⟨input.getD 0 0#8, input.getD 1 0#8, input.getD 2 0#8, input.getD 3 0#8⟩ ∧ r.idTag = magic)

/-- Byte 6: the mirroring Booleans (R114), the three flags (R115), the mirroring mode (R116). The three-valued mode is the
spec's own inference (R116: "this spec's way to carry the override", "derived: from rules R114 and R115"). -/
def Obligations.HeaderFlagsComeFromByteSix : Prop :=
  ∀ (magic : IdTag) (input : List Byte) (r : CartridgeHeader), headerDecode magic input = .ok r →
    (r.mirrorVertical = true ↔ (input.getD 6 0#8).extractLsb' 0 1 = 1#1) ∧
    (r.mirrorHorizontal = true ↔ (input.getD 6 0#8).extractLsb' 0 1 = 0#1) ∧
    (r.battery = true ↔ (input.getD 6 0#8).extractLsb' 1 1 = 1#1) ∧
    (r.trainer = true ↔ (input.getD 6 0#8).extractLsb' 2 1 = 1#1) ∧
    (r.fourScreen = true ↔ (input.getD 6 0#8).extractLsb' 3 1 = 1#1) ∧
    (r.fourScreen = true → r.mirroringMode = .fourScreen) ∧
    (r.fourScreen = false → r.mirrorVertical = true → r.mirroringMode = .vertical) ∧
    (r.fourScreen = false → r.mirrorVertical = false → r.mirroringMode = .horizontal)

/-- The version and the console field of byte 7 (R118, R119). -/
def Obligations.HeaderVersionAndConsoleComeFromByteSeven : Prop :=
  ∀ (magic : IdTag) (input : List Byte) (r : CartridgeHeader), headerDecode magic input = .ok r →
    (r.version = .extended ↔ (input.getD 7 0#8) &&& 0x0C#8 = 0x08#8) ∧
    (r.version = .legacy ↔ (input.getD 7 0#8) &&& 0x0C#8 ≠ 0x08#8) ∧
    (r.extValid = true ↔ r.version = .extended) ∧
    r.consoleType = (input.getD 7 0#8).extractLsb' 0 2 ∧
    (r.vsFlag = true ↔ (input.getD 7 0#8).extractLsb' 0 1 = 1#1) ∧
    (r.pc10Flag = true ↔ (input.getD 7 0#8).extractLsb' 1 1 = 1#1)

/-- The mapper and sub-mapper numbers (R117, R120, R121, R122), as numbers. -/
def Obligations.HeaderMapperIsJoinedFromNibbles : Prop :=
  ∀ (magic : IdTag) (input : List Byte) (r : CartridgeHeader), headerDecode magic input = .ok r →
    (r.version = .legacy → r.mapper.toNat = (input.getD 7 0#8).toNat / 16 * 16 + (input.getD 6 0#8).toNat / 16 ∧
      r.submapper = none) ∧
    (r.version = .extended →
      r.mapper.toNat = (input.getD 8 0#8).toNat % 16 * 256 + (input.getD 7 0#8).toNat / 16 * 16 +
        (input.getD 6 0#8).toNat / 16 ∧
      r.submapper = some ((input.getD 8 0#8).extractLsb' 4 4))

/-- The ROM sizes (R113, R123, R124): counts of units, the high nibble's value times 256 plus the low byte, never joined as
digits. -/
def Obligations.RomSizesAreShiftedTogether : Prop :=
  ∀ (magic : IdTag) (input : List Byte) (r : CartridgeHeader), headerDecode magic input = .ok r →
    r.prgRomLsb = input.getD 4 0#8 ∧ r.chrRomLsb = input.getD 5 0#8 ∧
    (r.version = .extended →
      r.prgRomMsb = (input.getD 9 0#8).extractLsb' 0 4 ∧ r.chrRomMsb = (input.getD 9 0#8).extractLsb' 4 4) ∧
    (r.version = .legacy → r.prgRomMsb = 0#4 ∧ r.chrRomMsb = 0#4) ∧
    r.prgRomSize.toNat = r.prgRomMsb.toNat * 256 + r.prgRomLsb.toNat ∧
    r.chrRomSize.toNat = r.chrRomMsb.toNat * 256 + r.chrRomLsb.toNat

/-- The RAM sizes (R125, R126, R127): in the extended version 0 for a shift count of 0, else 64 times a power of two; absent
in the legacy version. -/
def Obligations.RamSizesComeFromShiftCounts : Prop :=
  ∀ (magic : IdTag) (input : List Byte) (r : CartridgeHeader), headerDecode magic input = .ok r →
    (r.version = .legacy →
      r.prgRamShift = none ∧ r.prgNvramShift = none ∧ r.chrRamShift = none ∧ r.chrNvramShift = none ∧
      r.prgRamSize = none ∧ r.prgNvramSize = none ∧ r.chrRamSize = none ∧ r.chrNvramSize = none) ∧
    (r.version = .extended → ∃ pr pn cr cn : BitVec 4,
      pr = (input.getD 10 0#8).extractLsb' 0 4 ∧ pn = (input.getD 10 0#8).extractLsb' 4 4 ∧
      cr = (input.getD 11 0#8).extractLsb' 0 4 ∧ cn = (input.getD 11 0#8).extractLsb' 4 4 ∧
      r.prgRamShift = some pr ∧ r.prgNvramShift = some pn ∧ r.chrRamShift = some cr ∧ r.chrNvramShift = some cn ∧
      r.prgRamSize.map BitVec.toNat = some (if pr = 0#4 then 0 else 64 * 2 ^ pr.toNat) ∧
      r.prgNvramSize.map BitVec.toNat = some (if pn = 0#4 then 0 else 64 * 2 ^ pn.toNat) ∧
      r.chrRamSize.map BitVec.toNat = some (if cr = 0#4 then 0 else 64 * 2 ^ cr.toNat) ∧
      r.chrNvramSize.map BitVec.toNat = some (if cn = 0#4 then 0 else 64 * 2 ^ cn.toNat))

/-- The direct fields and the sub-types of an extended header (R128 to R132), absent wherever they are not defined. -/
def Obligations.ExtendedFieldsAreDirectSlices : Prop :=
  ∀ (magic : IdTag) (input : List Byte) (r : CartridgeHeader), headerDecode magic input = .ok r →
    (r.version = .extended →
      r.timing = some ((input.getD 12 0#8).extractLsb' 0 2) ∧
      r.miscRoms = some ((input.getD 14 0#8).extractLsb' 0 2) ∧
      r.expansionDevice = some ((input.getD 15 0#8).extractLsb' 0 6)) ∧
    (r.version = .legacy → r.timing = none ∧ r.miscRoms = none ∧ r.expansionDevice = none) ∧
    (r.version = .extended → r.consoleType = 1#2 →
      r.vsPpuType = some ((input.getD 13 0#8).extractLsb' 0 4) ∧
      r.vsHwType = some ((input.getD 13 0#8).extractLsb' 4 4)) ∧
    (¬ (r.version = .extended ∧ r.consoleType = 1#2) → r.vsPpuType = none ∧ r.vsHwType = none) ∧
    (r.version = .extended → r.consoleType = 3#2 → r.extConsoleType = some ((input.getD 13 0#8).extractLsb' 0 4)) ∧
    (¬ (r.version = .extended ∧ r.consoleType = 3#2) → r.extConsoleType = none)

/-- In the legacy version bytes 8 to 15 are not decoded (R133): no extended field, and the record is the same whatever they
hold. -/
def Obligations.LegacyRecordsIgnoreBytesEightToFifteen : Prop :=
  ∀ (magic : IdTag) (input : List Byte) (r : CartridgeHeader), headerDecode magic input = .ok r →
    r.version = .legacy →
    r.extValid = false ∧ r.mapper.toNat < 256 ∧ r.prgRomMsb = 0#4 ∧ r.chrRomMsb = 0#4 ∧ r.submapper = none ∧
    r.prgRamShift = none ∧ r.prgNvramShift = none ∧ r.prgRamSize = none ∧ r.prgNvramSize = none ∧
    r.chrRamShift = none ∧ r.chrNvramShift = none ∧ r.chrRamSize = none ∧ r.chrNvramSize = none ∧
    r.timing = none ∧ r.vsPpuType = none ∧ r.vsHwType = none ∧ r.extConsoleType = none ∧ r.miscRoms = none ∧
    r.expansionDevice = none ∧
    ∀ other : List Byte, 16 ≤ other.length → other.take 8 = input.take 8 → headerDecode magic other = .ok r

/-- The invariants of every record (R134), as `CartridgeHeader.Valid` lists them. -/
def Obligations.EveryRecordIsValid : Prop :=
  ∀ (magic : IdTag) (input : List Byte) (r : CartridgeHeader), headerDecode magic input = .ok r → r.Valid magic

/-! ## The header-byte rows -/

/-- What each header-byte row gives back, in every state, changing nothing else (R112 to R132). Completes HDR.B0 to HDR.B15,
all twenty-one rows; HDR.B0 to HDR.B3 answer InvalidFormat for a byte that is not MAGIC's. Log entries 7 and 12. -/
def Obligations.HeaderByteRowsGiveTheirFields : Prop :=
  ∀ s : State,
    let gives (i : Instr) (p : HeaderPart) : Prop := exec i s = .next { s with results := s.results ++ [.part p] }
    let fails (i : Instr) : Prop :=
      exec i s = .next { s with results := s.results ++ [.parseFailure .invalidFormat] }
    let size (n : BitVec 4) : BitVec 22 := if n = 0#4 then 0#22 else 64#22 <<< n.toNat
    (∀ b, (b = s.cfg.magic.b0 → gives (.hdrB0 b) (.idByte b)) ∧ (b ≠ s.cfg.magic.b0 → fails (.hdrB0 b))) ∧
    (∀ b, (b = s.cfg.magic.b1 → gives (.hdrB1 b) (.idByte b)) ∧ (b ≠ s.cfg.magic.b1 → fails (.hdrB1 b))) ∧
    (∀ b, (b = s.cfg.magic.b2 → gives (.hdrB2 b) (.idByte b)) ∧ (b ≠ s.cfg.magic.b2 → fails (.hdrB2 b))) ∧
    (∀ b, (b = s.cfg.magic.b3 → gives (.hdrB3 b) (.idByte b)) ∧ (b ≠ s.cfg.magic.b3 → fails (.hdrB3 b))) ∧
    (∀ v, gives (.hdrB4 v) (.prgRomLsb v)) ∧ (∀ v, gives (.hdrB5 v) (.chrRomLsb v)) ∧
    (∀ m f t b v, gives (.hdrB6 m f t b v)
      (.flags6 m f t b v (!v) (if f then .fourScreen else if v then .vertical else .horizontal))) ∧
    (∀ m c, gives (.hdrB7Ext m c) (.flags7 .extended m c (c.getLsbD 0) (c.getLsbD 1))) ∧
    (∀ m c, gives (.hdrB7Leg00 m c) (.flags7 .legacy m c (c.getLsbD 0) (c.getLsbD 1))) ∧
    (∀ m c, gives (.hdrB7Leg01 m c) (.flags7 .legacy m c (c.getLsbD 0) (c.getLsbD 1))) ∧
    (∀ m c, gives (.hdrB7Leg11 m c) (.flags7 .legacy m c (c.getLsbD 0) (c.getLsbD 1))) ∧
    (∀ sub hi, gives (.hdrB8 sub hi) (.mapperHigh sub hi)) ∧ (∀ c p, gives (.hdrB9 c p) (.romMsb c p)) ∧
    (∀ n v, gives (.hdrB10 n v) (.prgRam n v (size n) (size v))) ∧
    (∀ n v, gives (.hdrB11 n v) (.chrRam n v (size n) (size v))) ∧
    (∀ t, gives (.hdrB12 t) (.timing t)) ∧ (∀ hw ppu, gives (.hdrB13Vs hw ppu) (.vsTypes hw ppu)) ∧
    (∀ t, gives (.hdrB13Extcon t) (.extConsole t)) ∧ gives .hdrB13Ign .ignored ∧
    (∀ n, gives (.hdrB14 n) (.miscRoms n)) ∧ (∀ d, gives (.hdrB15 d) (.expansion d))

/-- The record of HDRDEC holds what the row of each of its bytes gives (R81, R136), in either version; an ignored byte gives no
field, and the record has none from it (R130, R133). That a header byte is an instruction of its own is the model's choice (log
entry 12), and that it answers in every state, FAULT set or not, is log entry 7's reading. -/
def Obligations.RecordAgreesWithItsHeaderBytes : Prop :=
  ∀ (s : State) (input : List Byte) (r : CartridgeHeader) (index : Fin 16),
    headerDecode s.cfg.magic input = .ok r →
    ∃ i p, decode (.header index (input.getD 7 0#8) (input.getD index.val 0#8)) = .ok i ∧
      exec i s = .next { s with results := s.results ++ [.part p] } ∧ p.agrees r

/-! ## Fatal faults and reset -/

/-- With FAULT set the four accesses and INSTALL are refused, with its cause (R227). -/
def Obligations.LatchedFaultRefusesEveryAccess : Prop :=
  ∀ (s : State) (f : Fault) (a : Addr) (v : Byte) (w : Word) (bytes : List Byte), s.fault = some f →
    ∀ i ∈ [Instr.rdb a, .wrb a v, .rdw a, .wrw a w, .install bytes], exec i s = .refused (.faultLatched f)

/-- With FAULT set the window rows and the proxy rows are refused too (R26; that they count as operations is the model's
choice, log entry 6). -/
def Obligations.LatchedFaultRefusesTheRows : Prop :=
  ∀ (s : State) (f : Fault) (i : Instr), s.fault = some f →
    ((∃ a acc, encode i = .bus a acc) ∨ ∃ p acc, encode i = .proxy p acc) → exec i s = .refused (.faultLatched f)

/-- An instruction that ends in a fatal fault sets FAULT and changes nothing else, and only three can: INSTALL of nothing
and the two proxy rows on an address outside the proxy's range (R225, R226; log entries 6 and 12). -/
def Obligations.FatalFaultChangesOnlyTheLatch : Prop :=
  ∀ (s t : State) (i : Instr), s.fault = none → exec i s = .next t → t.fault ≠ none →
    t = { s with fault := t.fault } ∧
    ((i = .install [] ∧ t.fault = some .emptyProgram) ∨
      ∃ p, ¬ (0x2000 ≤ p.toNat ∧ p.toNat < 0x2008) ∧ t.fault = some (.proxyAddressOutOfRange p) ∧
        (i = .pxRd p ∨ ∃ v, i = .pxWr p v))

/-- FAULT is never cleared but by a reset (R26, R231). -/
def Obligations.OnlyResetClearsFault : Prop :=
  ∀ (s t : State) (f : Fault), s.fault = some f → step s = .next t →
    t.fault = some f ∨ s.pending.head? = some .reset

/-- Reset (R260): every cell holds the INIT byte of a new session, USEL is OWN, FAULT is clear, and the session's histories
are empty. What stays is what is not the block's: the parameters, the count of proxy reads and what is still pending (the
model's choice, log entries 1 to 4). -/
def Obligations.ResetStartsANewSession : Prop :=
  ∀ (s : State) (rest : List Request),
    ∃ t, step { s with pending := .reset :: rest } = .next t ∧ (∀ S o, t.cell S o = Config.initByte (s.session + 1) S o) ∧
      t.usel = .own ∧ t.fault = none ∧ t.session = s.session + 1 ∧ t.proxyLog = [] ∧ t.trace = [] ∧ t.results = [] ∧
      t.cfg = s.cfg ∧ t.draws = s.draws ∧ t.pending = rest

/-- The state after reset (R34): stores in canonical form and at INIT, USEL = OWN, FAULT clear. -/
def Obligations.ResetStateIsCanonical : Prop :=
  State.reset.wf = true ∧ (∀ S o, State.reset.cell S o = Config.initByte 0 S o) ∧ State.reset.usel = .own ∧
    State.reset.fault = none

/-! ## Every step -/

/-- When the oldest request is a transaction that decodes to an instruction, the step is that instruction on the state
without the request; with nothing pending the block is idle (the model's choice, log entry 1). -/
def Obligations.StepRunsTheDecodedInstruction : Prop :=
  (∀ (s : State) (t : Txn) (rest : List Request) (i : Instr), s.pending = .txn t :: rest → decode t = .ok i →
    step s = exec i { s with pending := rest }) ∧
  (∀ s : State, s.pending = [] → step s = .next s)

/-- Every step keeps the stores in canonical form: offsets strictly rising and below the capacity (R23: never resized). -/
def Obligations.StepKeepsStoresCanonical : Prop :=
  ∀ s t : State, s.wf = true → step s = .next t → t.wf = true

/-- USEL changes only by INSTALL and at reset, and the parameters never (R25, R269). -/
def Obligations.OnlyInstallAndResetChangeTheBankSelect : Prop :=
  (∀ (s t : State) (i : Instr), exec i s = .next t → t.cfg = s.cfg ∧ ((∃ bytes, i = .install bytes) ∨ t.usel = s.usel)) ∧
  (∀ s t : State, step s = .next t → t.cfg = s.cfg ∧
    (t.usel = s.usel ∨ s.pending.head? = some .reset ∨
      ∃ w bytes, s.pending.head? = some (.txn (.cmd w bytes)) ∧ decode (.cmd w bytes) = .ok (.install bytes)))

/-- What an instruction can change in the stores: a cell routed to by its byte or word write, or, if it is INSTALL, a cell of
a bank. R24 names WRB, WRW and INSTALL; that a writing window row is one more such write is the model's choice (log entry
12). A reset is no instruction and not spoken of here. -/
def Obligations.CellsChangeOnlyByWritesRoutedToThem : Prop :=
  ∀ (s t : State) (i : Instr) (S : Store) (o : Nat), exec i s = .next t → t.cell S o ≠ s.cell S o →
    (∃ a v, i = .wrb a v ∧ route s.usel a = .cell S o) ∨
    (∃ a w, i = .wrw a w ∧ (route s.usel a = .cell S o ∨ route s.usel (nextAddr a) = .cell S o)) ∨
    (∃ a v, encode i = .bus a (.write v) ∧ route s.usel a = .cell S o) ∨
    (∃ bytes, i = .install bytes ∧ (S = .prgl ∨ S = .prgu))

/-- The trace output changes no state and no result: with it or without it, every instruction does the same (R165, R210). -/
def Obligations.TraceOutputIsPure : Prop :=
  ∀ (i : Instr) (s : State), exec i s.untraced = mapNext State.untraced (exec i s)

/-- No instruction reads an earlier result: no field of a header record, and no byte read before, reaches the router or the
stores (R28, R31). -/
def Obligations.ResultsAreNeverReadBack : Prop :=
  ∀ (i : Instr) (s : State) (earlier : List Result),
    exec i { s with results := earlier ++ s.results } =
      mapNext (fun t => { t with results := earlier ++ t.results }) (exec i s)

/-! ## The host's load sequence -/

/-- LOADCART (R267, R268): a file whose header fails is refused and nothing else happens; else the program bytes, found after
the header and the trainer and cut at the end of the file, are installed by the next step (two steps: log entry 8). -/
def Obligations.LoadCartDecodesThenInstalls : Prop :=
  ∀ (s : State) (file : List Byte) (rest : List Request),
    (∀ e, headerDecode s.cfg.magic (file.take 16) = .error e →
      step { s with pending := .loadCart file :: rest } =
        .next { s with pending := rest, results := s.results ++ [.parseFailure e] }) ∧
    (∀ r, headerDecode s.cfg.magic (file.take 16) = .ok r →
      let p := 16 + (if r.trainer then 512 else 0)
      let prg := (file.drop p).take (r.prgRomSize.toNat * s.cfg.prgUnit)
      ∃ t, step { s with pending := .loadCart file :: rest } = .next t ∧
        (∀ S o, t.cell S o = s.cell S o) ∧ t.usel = s.usel ∧ t.fault = s.fault ∧
        t.results = s.results ++ [.header r] ∧ step t = exec (.install prg) { t with pending := rest })
end

