-- ==== Sys2Proof/Laws/State.lean ====
section
/-! SUPPORT. The small lemmas of State: what each update does to each field. -/

namespace Sys2Proof.Machine

/-! ## setStore -/

@[simp] theorem setStore_usel (s : State) (S : Store) (m : Memory) : (s.setStore S m).usel = s.usel := by
  cases S <;> rfl

@[simp] theorem setStore_fault (s : State) (S : Store) (m : Memory) : (s.setStore S m).fault = s.fault := by
  cases S <;> rfl

@[simp] theorem setStore_cfg (s : State) (S : Store) (m : Memory) : (s.setStore S m).cfg = s.cfg := by
  cases S <;> rfl

@[simp] theorem setStore_session (s : State) (S : Store) (m : Memory) : (s.setStore S m).session = s.session := by
  cases S <;> rfl

@[simp] theorem setStore_draws (s : State) (S : Store) (m : Memory) : (s.setStore S m).draws = s.draws := by
  cases S <;> rfl

@[simp] theorem setStore_proxyLog (s : State) (S : Store) (m : Memory) : (s.setStore S m).proxyLog = s.proxyLog := by
  cases S <;> rfl

@[simp] theorem setStore_trace (s : State) (S : Store) (m : Memory) : (s.setStore S m).trace = s.trace := by
  cases S <;> rfl

@[simp] theorem setStore_results (s : State) (S : Store) (m : Memory) : (s.setStore S m).results = s.results := by
  cases S <;> rfl

@[simp] theorem setStore_pending (s : State) (S : Store) (m : Memory) : (s.setStore S m).pending = s.pending := by
  cases S <;> rfl

@[simp] theorem setStore_store (s : State) (S S' : Store) (m : Memory) :
    (s.setStore S m).store S' = if S' = S then m else s.store S' := by
  cases S <;> cases S' <;> rfl

/-! ## setCell -/

@[simp] theorem setCell_usel (s : State) (S : Store) (o : Nat) (v : Byte) : (s.setCell S o v).usel = s.usel := by
  simp [State.setCell]

@[simp] theorem setCell_fault (s : State) (S : Store) (o : Nat) (v : Byte) : (s.setCell S o v).fault = s.fault := by
  simp [State.setCell]

@[simp] theorem setCell_cfg (s : State) (S : Store) (o : Nat) (v : Byte) : (s.setCell S o v).cfg = s.cfg := by
  simp [State.setCell]

@[simp] theorem setCell_session (s : State) (S : Store) (o : Nat) (v : Byte) : (s.setCell S o v).session = s.session := by
  simp [State.setCell]

@[simp] theorem setCell_draws (s : State) (S : Store) (o : Nat) (v : Byte) : (s.setCell S o v).draws = s.draws := by
  simp [State.setCell]

@[simp] theorem setCell_proxyLog (s : State) (S : Store) (o : Nat) (v : Byte) : (s.setCell S o v).proxyLog = s.proxyLog := by
  simp [State.setCell]

@[simp] theorem setCell_trace (s : State) (S : Store) (o : Nat) (v : Byte) : (s.setCell S o v).trace = s.trace := by
  simp [State.setCell]

@[simp] theorem setCell_results (s : State) (S : Store) (o : Nat) (v : Byte) : (s.setCell S o v).results = s.results := by
  simp [State.setCell]

@[simp] theorem setCell_pending (s : State) (S : Store) (o : Nat) (v : Byte) : (s.setCell S o v).pending = s.pending := by
  simp [State.setCell]

/-! ## answer -/

@[simp] theorem answer_ram (s : State) (r : Result) : (s.answer r).ram = s.ram := rfl

@[simp] theorem answer_iow (s : State) (r : Result) : (s.answer r).iow = s.iow := rfl

@[simp] theorem answer_exp (s : State) (r : Result) : (s.answer r).exp = s.exp := rfl

@[simp] theorem answer_prgl (s : State) (r : Result) : (s.answer r).prgl = s.prgl := rfl

@[simp] theorem answer_prgu (s : State) (r : Result) : (s.answer r).prgu = s.prgu := rfl

@[simp] theorem answer_usel (s : State) (r : Result) : (s.answer r).usel = s.usel := rfl

@[simp] theorem answer_fault (s : State) (r : Result) : (s.answer r).fault = s.fault := rfl

@[simp] theorem answer_cfg (s : State) (r : Result) : (s.answer r).cfg = s.cfg := rfl

@[simp] theorem answer_session (s : State) (r : Result) : (s.answer r).session = s.session := rfl

@[simp] theorem answer_draws (s : State) (r : Result) : (s.answer r).draws = s.draws := rfl

@[simp] theorem answer_proxyLog (s : State) (r : Result) : (s.answer r).proxyLog = s.proxyLog := rfl

@[simp] theorem answer_trace (s : State) (r : Result) : (s.answer r).trace = s.trace := rfl

@[simp] theorem answer_results (s : State) (r : Result) : (s.answer r).results = s.results ++ [r] := rfl

@[simp] theorem answer_pending (s : State) (r : Result) : (s.answer r).pending = s.pending := rfl

@[simp] theorem answer_store (s : State) (r : Result) (S : Store) : (s.answer r).store S = s.store S := by
  cases S <;> rfl

@[simp] theorem answer_cell (s : State) (r : Result) (S : Store) (o : Nat) : (s.answer r).cell S o = s.cell S o := by
  simp [State.cell]

/-! ## takeFault -/

@[simp] theorem takeFault_ram (s : State) (f : Fault) : (takeFault f s).ram = s.ram := rfl

@[simp] theorem takeFault_iow (s : State) (f : Fault) : (takeFault f s).iow = s.iow := rfl

@[simp] theorem takeFault_exp (s : State) (f : Fault) : (takeFault f s).exp = s.exp := rfl

@[simp] theorem takeFault_prgl (s : State) (f : Fault) : (takeFault f s).prgl = s.prgl := rfl

@[simp] theorem takeFault_prgu (s : State) (f : Fault) : (takeFault f s).prgu = s.prgu := rfl

@[simp] theorem takeFault_usel (s : State) (f : Fault) : (takeFault f s).usel = s.usel := rfl

@[simp] theorem takeFault_fault (s : State) (f : Fault) : (takeFault f s).fault = some f := rfl

@[simp] theorem takeFault_cfg (s : State) (f : Fault) : (takeFault f s).cfg = s.cfg := rfl

@[simp] theorem takeFault_session (s : State) (f : Fault) : (takeFault f s).session = s.session := rfl

@[simp] theorem takeFault_draws (s : State) (f : Fault) : (takeFault f s).draws = s.draws := rfl

@[simp] theorem takeFault_proxyLog (s : State) (f : Fault) : (takeFault f s).proxyLog = s.proxyLog := rfl

@[simp] theorem takeFault_trace (s : State) (f : Fault) : (takeFault f s).trace = s.trace := rfl

@[simp] theorem takeFault_results (s : State) (f : Fault) : (takeFault f s).results = s.results := rfl

@[simp] theorem takeFault_pending (s : State) (f : Fault) : (takeFault f s).pending = s.pending := rfl

@[simp] theorem takeFault_store (s : State) (f : Fault) (S : Store) : (takeFault f s).store S = s.store S := by
  cases S <;> rfl

@[simp] theorem takeFault_cell (s : State) (f : Fault) (S : Store) (o : Nat) : (takeFault f s).cell S o = s.cell S o := by
  simp [State.cell]

/-! ## issueFirst -/

@[simp] theorem issueFirst_ram (s : State) (r : Request) : (issueFirst s r).ram = s.ram := rfl

@[simp] theorem issueFirst_iow (s : State) (r : Request) : (issueFirst s r).iow = s.iow := rfl

@[simp] theorem issueFirst_exp (s : State) (r : Request) : (issueFirst s r).exp = s.exp := rfl

@[simp] theorem issueFirst_prgl (s : State) (r : Request) : (issueFirst s r).prgl = s.prgl := rfl

@[simp] theorem issueFirst_prgu (s : State) (r : Request) : (issueFirst s r).prgu = s.prgu := rfl

@[simp] theorem issueFirst_usel (s : State) (r : Request) : (issueFirst s r).usel = s.usel := rfl

@[simp] theorem issueFirst_fault (s : State) (r : Request) : (issueFirst s r).fault = s.fault := rfl

@[simp] theorem issueFirst_cfg (s : State) (r : Request) : (issueFirst s r).cfg = s.cfg := rfl

@[simp] theorem issueFirst_session (s : State) (r : Request) : (issueFirst s r).session = s.session := rfl

@[simp] theorem issueFirst_draws (s : State) (r : Request) : (issueFirst s r).draws = s.draws := rfl

@[simp] theorem issueFirst_proxyLog (s : State) (r : Request) : (issueFirst s r).proxyLog = s.proxyLog := rfl

@[simp] theorem issueFirst_trace (s : State) (r : Request) : (issueFirst s r).trace = s.trace := rfl

@[simp] theorem issueFirst_results (s : State) (r : Request) : (issueFirst s r).results = s.results := rfl

@[simp] theorem issueFirst_pending (s : State) (r : Request) : (issueFirst s r).pending = r :: s.pending := rfl

@[simp] theorem issueFirst_store (s : State) (r : Request) (S : Store) : (issueFirst s r).store S = s.store S := by
  cases S <;> rfl

@[simp] theorem issueFirst_cell (s : State) (r : Request) (S : Store) (o : Nat) : (issueFirst s r).cell S o = s.cell S o := by
  simp [State.cell]

/-! ## powerOn -/

@[simp] theorem powerOn_ram (s : State) : (powerOn s).ram = [] := rfl

@[simp] theorem powerOn_iow (s : State) : (powerOn s).iow = [] := rfl

@[simp] theorem powerOn_exp (s : State) : (powerOn s).exp = [] := rfl

@[simp] theorem powerOn_prgl (s : State) : (powerOn s).prgl = [] := rfl

@[simp] theorem powerOn_prgu (s : State) : (powerOn s).prgu = [] := rfl

@[simp] theorem powerOn_usel (s : State) : (powerOn s).usel = .own := rfl

@[simp] theorem powerOn_fault (s : State) : (powerOn s).fault = none := rfl

@[simp] theorem powerOn_cfg (s : State) : (powerOn s).cfg = s.cfg := rfl

@[simp] theorem powerOn_session (s : State) : (powerOn s).session = s.session + 1 := rfl

@[simp] theorem powerOn_draws (s : State) : (powerOn s).draws = s.draws := rfl

@[simp] theorem powerOn_proxyLog (s : State) : (powerOn s).proxyLog = [] := rfl

@[simp] theorem powerOn_trace (s : State) : (powerOn s).trace = [] := rfl

@[simp] theorem powerOn_results (s : State) : (powerOn s).results = [] := rfl

@[simp] theorem powerOn_pending (s : State) : (powerOn s).pending = s.pending := rfl

@[simp] theorem powerOn_store (s : State) (S : Store) : (powerOn s).store S = [] := by
  cases S <;> rfl

@[simp] theorem powerOn_cell (s : State) (S : Store) (o : Nat) :
    (powerOn s).cell S o = Config.initByte (s.session + 1) S o := by
  simp [State.cell, Memory.find]

/-! ## emit -/

@[simp] theorem emit_ram (k : AccessKind) (a : Addr) (r : Region) (v : Byte) (s : State) :
    (emit k a r v s).ram = s.ram := by
  unfold emit; split <;> rfl

@[simp] theorem emit_iow (k : AccessKind) (a : Addr) (r : Region) (v : Byte) (s : State) :
    (emit k a r v s).iow = s.iow := by
  unfold emit; split <;> rfl

@[simp] theorem emit_exp (k : AccessKind) (a : Addr) (r : Region) (v : Byte) (s : State) :
    (emit k a r v s).exp = s.exp := by
  unfold emit; split <;> rfl

@[simp] theorem emit_prgl (k : AccessKind) (a : Addr) (r : Region) (v : Byte) (s : State) :
    (emit k a r v s).prgl = s.prgl := by
  unfold emit; split <;> rfl

@[simp] theorem emit_prgu (k : AccessKind) (a : Addr) (r : Region) (v : Byte) (s : State) :
    (emit k a r v s).prgu = s.prgu := by
  unfold emit; split <;> rfl

@[simp] theorem emit_usel (k : AccessKind) (a : Addr) (r : Region) (v : Byte) (s : State) :
    (emit k a r v s).usel = s.usel := by
  unfold emit; split <;> rfl

@[simp] theorem emit_fault (k : AccessKind) (a : Addr) (r : Region) (v : Byte) (s : State) :
    (emit k a r v s).fault = s.fault := by
  unfold emit; split <;> rfl

@[simp] theorem emit_cfg (k : AccessKind) (a : Addr) (r : Region) (v : Byte) (s : State) :
    (emit k a r v s).cfg = s.cfg := by
  unfold emit; split <;> rfl

@[simp] theorem emit_session (k : AccessKind) (a : Addr) (r : Region) (v : Byte) (s : State) :
    (emit k a r v s).session = s.session := by
  unfold emit; split <;> rfl

@[simp] theorem emit_draws (k : AccessKind) (a : Addr) (r : Region) (v : Byte) (s : State) :
    (emit k a r v s).draws = s.draws := by
  unfold emit; split <;> rfl

@[simp] theorem emit_proxyLog (k : AccessKind) (a : Addr) (r : Region) (v : Byte) (s : State) :
    (emit k a r v s).proxyLog = s.proxyLog := by
  unfold emit; split <;> rfl

@[simp] theorem emit_trace (k : AccessKind) (a : Addr) (r : Region) (v : Byte) (s : State) :
    (emit k a r v s).trace = if s.cfg.trace then s.trace ++ [⟨k, a, r, v⟩] else s.trace := by
  unfold emit; split <;> rfl

@[simp] theorem emit_results (k : AccessKind) (a : Addr) (r : Region) (v : Byte) (s : State) :
    (emit k a r v s).results = s.results := by
  unfold emit; split <;> rfl

@[simp] theorem emit_pending (k : AccessKind) (a : Addr) (r : Region) (v : Byte) (s : State) :
    (emit k a r v s).pending = s.pending := by
  unfold emit; split <;> rfl

@[simp] theorem emit_store (k : AccessKind) (a : Addr) (r : Region) (v : Byte) (s : State) (S : Store) :
    (emit k a r v s).store S = s.store S := by
  cases S <;> simp [State.store]

@[simp] theorem emit_cell (k : AccessKind) (a : Addr) (r : Region) (v : Byte) (s : State) (S : Store) (o : Nat) :
    (emit k a r v s).cell S o = s.cell S o := by
  simp [State.cell]

/-! ## cells after a change of one field that is no store -/

@[simp] theorem with_usel_store (s : State) (x) (S : Store) : State.store { s with usel := x } S = s.store S := by
  cases S <;> rfl

@[simp] theorem with_usel_cell (s : State) (x) (S : Store) (o : Nat) : State.cell { s with usel := x } S o = s.cell S o := by
  simp [State.cell]

@[simp] theorem with_fault_store (s : State) (x) (S : Store) : State.store { s with fault := x } S = s.store S := by
  cases S <;> rfl

@[simp] theorem with_fault_cell (s : State) (x) (S : Store) (o : Nat) : State.cell { s with fault := x } S o = s.cell S o := by
  simp [State.cell]

@[simp] theorem with_cfg_store (s : State) (x) (S : Store) : State.store { s with cfg := x } S = s.store S := by
  cases S <;> rfl

@[simp] theorem with_cfg_cell (s : State) (x) (S : Store) (o : Nat) : State.cell { s with cfg := x } S o = s.cell S o := by
  simp [State.cell]

@[simp] theorem with_draws_store (s : State) (x) (S : Store) : State.store { s with draws := x } S = s.store S := by
  cases S <;> rfl

@[simp] theorem with_draws_cell (s : State) (x) (S : Store) (o : Nat) : State.cell { s with draws := x } S o = s.cell S o := by
  simp [State.cell]

@[simp] theorem with_proxyLog_store (s : State) (x) (S : Store) : State.store { s with proxyLog := x } S = s.store S := by
  cases S <;> rfl

@[simp] theorem with_proxyLog_cell (s : State) (x) (S : Store) (o : Nat) : State.cell { s with proxyLog := x } S o = s.cell S o := by
  simp [State.cell]

@[simp] theorem with_trace_store (s : State) (x) (S : Store) : State.store { s with trace := x } S = s.store S := by
  cases S <;> rfl

@[simp] theorem with_trace_cell (s : State) (x) (S : Store) (o : Nat) : State.cell { s with trace := x } S o = s.cell S o := by
  simp [State.cell]

@[simp] theorem with_results_store (s : State) (x) (S : Store) : State.store { s with results := x } S = s.store S := by
  cases S <;> rfl

@[simp] theorem with_results_cell (s : State) (x) (S : Store) (o : Nat) : State.cell { s with results := x } S o = s.cell S o := by
  simp [State.cell]

@[simp] theorem with_pending_store (s : State) (x) (S : Store) : State.store { s with pending := x } S = s.store S := by
  cases S <;> rfl

@[simp] theorem with_pending_cell (s : State) (x) (S : Store) (o : Nat) : State.cell { s with pending := x } S o = s.cell S o := by
  simp [State.cell]

end Sys2Proof.Machine
end

