-- ==== Sys2Proof/Laws/Memory.lean ====
section
/-! SUPPORT. Memory: a read after a write gives the value written, a write leaves every other cell alone, and every
operation keeps the canonical form. -/

namespace Sys2Proof.Machine

/-! ## Reading back -/

@[simp] theorem find_nil (o : Nat) : Memory.find [] o = none := rfl

theorem find_insert (m : Memory) (o o' : Nat) (v : Byte) :
    Memory.find (Memory.insert m o v) o' = if o' = o then some v else Memory.find m o' := by
  induction m with
  | nil => simp only [Memory.insert, Memory.find, eq_comm]
  | cons c rest ih =>
    obtain ⟨k, b⟩ := c
    simp only [Memory.insert]
    split
    · simp only [Memory.find, eq_comm]
    · split
      · subst_vars
        by_cases h : k = o'
        · simp [Memory.find, h]
        · simp [Memory.find, h, Ne.symm h]
      · simp only [Memory.find, ih]
        split <;> split <;> simp_all

theorem find_append (m n : Memory) (o : Nat) :
    Memory.find (m ++ n) o = (Memory.find m o).or (Memory.find n o) := by
  induction m with
  | nil => simp
  | cons c rest ih =>
    obtain ⟨k, b⟩ := c
    simp only [List.cons_append, Memory.find]
    split
    · rfl
    · exact ih

theorem find_filter (m : Memory) (p : Nat → Bool) (o : Nat) :
    Memory.find (m.filter fun c => p c.1) o = if p o then Memory.find m o else none := by
  induction m with
  | nil => simp
  | cons c rest ih =>
    obtain ⟨k, b⟩ := c
    simp only [List.filter_cons]
    by_cases hk : k = o
    · subst hk; by_cases hp : p k <;> simp_all [Memory.find]
    · by_cases hp : p k <;> simp_all [Memory.find]

theorem find_ofRun (bytes : List Byte) (o o' : Nat) :
    Memory.find (Memory.ofRun o bytes) o' = if o ≤ o' then bytes[o' - o]? else none := by
  induction bytes generalizing o with
  | nil => simp [Memory.ofRun]
  | cons b rest ih =>
    simp only [Memory.ofRun, Memory.find, ih]
    by_cases h : o = o'
    · subst h; simp
    · by_cases h2 : o ≤ o'
      · have : o' - o = (o' - (o + 1)) + 1 := by omega
        simp [h, h2, this, show o + 1 ≤ o' by omega]
      · simp [h, h2, show ¬ o + 1 ≤ o' by omega]

/-- A bulk write gives each cell of the run its byte and leaves every other cell alone (R202). -/
theorem find_insertRun (m : Memory) (o o' : Nat) (bytes : List Byte) :
    Memory.find (Memory.insertRun m o bytes) o' =
      if o ≤ o' ∧ o' < o + bytes.length then bytes[o' - o]? else Memory.find m o' := by
  unfold Memory.insertRun
  rw [find_append, find_append, find_filter m (fun k => decide (k < o)), find_ofRun,
    find_filter m (fun k => decide (o + bytes.length ≤ k))]
  by_cases h1 : o ≤ o'
  · by_cases h2 : o' < o + bytes.length
    · have h3 : bytes[o' - o]? = some bytes[o' - o] := List.getElem?_eq_getElem (by omega)
      simp [h1, h2, h3, show ¬ o' < o by omega]
    · have h3 : bytes[o' - o]? = none := List.getElem?_eq_none (by omega)
      simp [h1, h2, h3, show ¬ o' < o by omega, show o + bytes.length ≤ o' by omega]
  · simp [h1, show o' < o by omega, show ¬ o + bytes.length ≤ o' by omega]

/-! ## The canonical form -/

theorem wfFrom_mono {cap low low' : Nat} {m : Memory} (h : Memory.wfFrom cap low m = true) (hl : low' ≤ low) :
    Memory.wfFrom cap low' m = true := by
  cases m with
  | nil => rfl
  | cons c rest =>
    obtain ⟨k, b⟩ := c
    simp only [Memory.wfFrom, Bool.and_eq_true, decide_eq_true_eq] at h ⊢
    exact ⟨⟨by omega, h.1.2⟩, h.2⟩

theorem wfFrom_insert {cap low o : Nat} {v : Byte} {m : Memory} (h : Memory.wfFrom cap low m = true)
    (hlow : low ≤ o) (hcap : o < cap) : Memory.wfFrom cap low (Memory.insert m o v) = true := by
  induction m generalizing low with
  | nil => simp [Memory.insert, Memory.wfFrom, hlow, hcap]
  | cons c rest ih =>
    obtain ⟨k, b⟩ := c
    simp only [Memory.wfFrom, Bool.and_eq_true, decide_eq_true_eq] at h
    simp only [Memory.insert]
    split
    · simp only [Memory.wfFrom, Bool.and_eq_true, decide_eq_true_eq]
      exact ⟨⟨hlow, hcap⟩, ⟨by omega, h.1.2⟩, h.2⟩
    · split
      · simpa only [Memory.wfFrom, Bool.and_eq_true, decide_eq_true_eq] using h
      · simp only [Memory.wfFrom, Bool.and_eq_true, decide_eq_true_eq]
        exact ⟨h.1, ih h.2 (by omega)⟩

/-- A write of one cell below the capacity keeps the canonical form. -/
theorem wf_insert {cap o : Nat} {v : Byte} {m : Memory} (h : Memory.wf cap m = true) (hcap : o < cap) :
    Memory.wf cap (Memory.insert m o v) = true :=
  wfFrom_insert h (Nat.zero_le o) hcap

theorem wfFrom_append {cap low mid : Nat} {m n : Memory} (hm : Memory.wfFrom cap low m = true)
    (hb : ∀ c ∈ m, c.1 < mid) (hn : Memory.wfFrom cap mid n = true) (hl : low ≤ mid) :
    Memory.wfFrom cap low (m ++ n) = true := by
  induction m generalizing low with
  | nil => exact wfFrom_mono hn hl
  | cons c rest ih =>
    obtain ⟨k, b⟩ := c
    simp only [Memory.wfFrom, Bool.and_eq_true, decide_eq_true_eq] at hm
    simp only [List.cons_append, Memory.wfFrom, Bool.and_eq_true, decide_eq_true_eq]
    have hk : k < mid := hb (k, b) (by simp)
    exact ⟨hm.1, ih hm.2 (fun c hc => hb c (by simp [hc])) (by omega)⟩

theorem wfFrom_filter {cap low : Nat} {m : Memory} (h : Memory.wfFrom cap low m = true) (p : Host.Cell → Bool) :
    Memory.wfFrom cap low (m.filter p) = true := by
  induction m generalizing low with
  | nil => rfl
  | cons c rest ih =>
    obtain ⟨k, b⟩ := c
    simp only [Memory.wfFrom, Bool.and_eq_true, decide_eq_true_eq] at h
    simp only [List.filter_cons]
    split
    · simp only [Memory.wfFrom, Bool.and_eq_true, decide_eq_true_eq]
      exact ⟨h.1, ih h.2⟩
    · exact ih (wfFrom_mono h.2 (by omega))

theorem wfFrom_of_ge {cap low low' : Nat} {m : Memory} (h : Memory.wfFrom cap low m = true)
    (hge : ∀ c ∈ m, low' ≤ c.1) : Memory.wfFrom cap low' m = true := by
  cases m with
  | nil => rfl
  | cons c rest =>
    obtain ⟨k, b⟩ := c
    simp only [Memory.wfFrom, Bool.and_eq_true, decide_eq_true_eq] at h ⊢
    exact ⟨⟨hge (k, b) (by simp), h.1.2⟩, h.2⟩

theorem wfFrom_ofRun {cap o : Nat} {bytes : List Byte} (h : o + bytes.length ≤ cap) :
    Memory.wfFrom cap o (Memory.ofRun o bytes) = true := by
  induction bytes generalizing o with
  | nil => rfl
  | cons b rest ih =>
    simp only [List.length_cons] at h
    simp only [Memory.ofRun, Memory.wfFrom, Bool.and_eq_true, decide_eq_true_eq]
    exact ⟨⟨Nat.le_refl o, by omega⟩, ih (by omega)⟩

theorem ofRun_lt {o : Nat} {bytes : List Byte} {c : Host.Cell} (h : c ∈ Memory.ofRun o bytes) :
    c.1 < o + bytes.length := by
  induction bytes generalizing o with
  | nil => simp [Memory.ofRun] at h
  | cons b rest ih =>
    simp only [Memory.ofRun, List.mem_cons] at h
    obtain rfl | h := h
    · simp
    · have := ih h
      simp only [List.length_cons]
      omega

/-- A bulk write that fits keeps the canonical form. -/
theorem wf_insertRun {cap o : Nat} {bytes : List Byte} {m : Memory} (h : Memory.wf cap m = true)
    (hcap : o + bytes.length ≤ cap) : Memory.wf cap (Memory.insertRun m o bytes) = true := by
  unfold Memory.wf Memory.insertRun
  rw [List.append_assoc]
  have hm : Memory.wfFrom cap 0 m = true := h
  refine wfFrom_append (mid := o) (wfFrom_filter hm _) ?_ ?_ (Nat.zero_le o)
  · intro c hc
    simpa using (List.mem_filter.mp hc).2
  · refine wfFrom_append (mid := o + bytes.length) (wfFrom_ofRun hcap) (fun c hc => ofRun_lt hc) ?_ (by omega)
    refine wfFrom_of_ge (wfFrom_filter hm _) ?_
    intro c hc
    simpa using (List.mem_filter.mp hc).2

/-! ## The stores of a state -/

theorem wf_iff (s : State) : s.wf = true ↔ ∀ S, Memory.wf (cap S) (s.store S) = true := by
  constructor
  · intro h S
    simp only [State.wf, Bool.and_eq_true] at h
    cases S <;> simp_all [State.store]
  · intro h
    simp only [State.wf, Bool.and_eq_true]
    exact ⟨⟨⟨⟨h .ram, h .iow⟩, h .exp⟩, h .prgl⟩, h .prgu⟩

theorem setStore_wf {s : State} {S : Store} {m : Memory} (hs : s.wf = true) (hm : Memory.wf (cap S) m = true) :
    (s.setStore S m).wf = true := by
  rw [wf_iff] at hs ⊢
  intro S'
  rw [setStore_store]
  split
  · subst_vars; exact hm
  · exact hs S'

/-- The state after a write of one cell of a store. -/
theorem setCell_wf {s : State} {S : Store} {o : Nat} {v : Byte} (hs : s.wf = true) (ho : o < cap S) :
    (s.setCell S o v).wf = true :=
  setStore_wf hs (wf_insert ((wf_iff s).mp hs S) ho)

/-- The canonical form depends on the stores alone. -/
theorem wf_of_store_eq {s t : State} (hs : s.wf = true) (h : ∀ S, t.store S = s.store S) : t.wf = true := by
  rw [wf_iff] at hs ⊢
  exact fun S => h S ▸ hs S

/-- A write to a store changes exactly one cell (R201). -/
theorem setCell_cell (s : State) (S S' : Store) (o o' : Nat) (v : Byte) :
    (s.setCell S o v).cell S' o' = if S' = S ∧ o' = o then v else s.cell S' o' := by
  simp only [State.setCell, State.cell, setStore_store, setStore_session]
  by_cases hS : S' = S
  · subst hS
    simp only [if_true, find_insert]
    by_cases ho : o' = o <;> simp [ho]
  · simp [hS]

/-- A bulk write changes the cells of the run and no other (R202). -/
theorem insertRun_cell (s : State) (S S' : Store) (o o' : Nat) (bytes : List Byte) :
    (s.setStore S (Memory.insertRun (s.store S) o bytes)).cell S' o' =
      if S' = S ∧ o ≤ o' ∧ o' < o + bytes.length then bytes.getD (o' - o) 0#8 else s.cell S' o' := by
  simp only [State.cell, setStore_store, setStore_session]
  by_cases hS : S' = S
  · subst hS
    simp only [if_true, find_insertRun]
    by_cases ho : o ≤ o' ∧ o' < o + bytes.length
    · have h3 : bytes[o' - o]? = some bytes[o' - o] := List.getElem?_eq_getElem (by omega)
      simp [ho, h3]
    · simp [ho]
  · simp [hS]

theorem reset_wf : State.reset.wf = true := rfl

end Sys2Proof.Machine
end

