-- ==== Sys2Proof/Laws/Decode.lean ====
section
/-! SUPPORT. Bits and numbers: an address put together from fields as a number, a masked address as a range, and the
router on them. -/

namespace Sys2Proof.Machine

/-- The number of a concatenation. -/
theorem toNat_append_add {m n : Nat} (x : BitVec m) (y : BitVec n) :
    (x ++ y).toNat = x.toNat * 2 ^ n + y.toNat := by
  rw [BitVec.toNat_append, ← Nat.shiftLeft_add_eq_or_of_lt y.isLt, Nat.shiftLeft_eq]

/-- The number of a slice. -/
theorem extract_toNat {w : Nat} (x : BitVec w) (start len : Nat) :
    (x.extractLsb' start len).toNat = x.toNat / 2 ^ start % 2 ^ len := by
  rw [BitVec.extractLsb'_toNat, Nat.shiftRight_eq_div_pow]

/-- Masking off the low `k` bits, as arithmetic. -/
theorem and_mask_toNat {w : Nat} (a : BitVec w) (k : Nat) :
    (a &&& (BitVec.allOnes w <<< k)).toNat = a.toNat / 2 ^ k * 2 ^ k := by
  have h : a &&& (BitVec.allOnes w <<< k) = (a >>> k) <<< k := by
    ext i hi
    by_cases hk : i < k
    · simp [hk]
    · simp [hk, hi, show k + (i - k) = i by omega]
  have hlt : a.toNat / 2 ^ k * 2 ^ k < 2 ^ w := Nat.lt_of_le_of_lt (Nat.div_mul_le_self _ _) a.isLt
  rw [h, BitVec.toNat_shiftLeft, BitVec.toNat_ushiftRight, Nat.shiftLeft_eq, Nat.shiftRight_eq_div_pow,
    Nat.mod_eq_of_lt hlt]

/-- A row of a format as a range: mask all ones from bit `k` up, match `c`. -/
theorem and_mask_eq_iff {w : Nat} (a c : BitVec w) (k : Nat) :
    a &&& (BitVec.allOnes w <<< k) = c ↔ a.toNat / 2 ^ k * 2 ^ k = c.toNat := by
  rw [← BitVec.toNat_inj, and_mask_toNat]

theorem maskE000 (a c : Addr) : a &&& 0xE000#16 = c ↔ a.toNat / 0x2000 * 0x2000 = c.toNat := and_mask_eq_iff a c 13
theorem maskFFE0 (a c : Addr) : a &&& 0xFFE0#16 = c ↔ a.toNat / 0x20 * 0x20 = c.toNat := and_mask_eq_iff a c 5
theorem maskFFC0 (a c : Addr) : a &&& 0xFFC0#16 = c ↔ a.toNat / 0x40 * 0x40 = c.toNat := and_mask_eq_iff a c 6
theorem maskFF80 (a c : Addr) : a &&& 0xFF80#16 = c ↔ a.toNat / 0x80 * 0x80 = c.toNat := and_mask_eq_iff a c 7
theorem maskFF00 (a c : Addr) : a &&& 0xFF00#16 = c ↔ a.toNat / 0x100 * 0x100 = c.toNat := and_mask_eq_iff a c 8
theorem maskFE00 (a c : Addr) : a &&& 0xFE00#16 = c ↔ a.toNat / 0x200 * 0x200 = c.toNat := and_mask_eq_iff a c 9
theorem maskFC00 (a c : Addr) : a &&& 0xFC00#16 = c ↔ a.toNat / 0x400 * 0x400 = c.toNat := and_mask_eq_iff a c 10
theorem maskF800 (a c : Addr) : a &&& 0xF800#16 = c ↔ a.toNat / 0x800 * 0x800 = c.toNat := and_mask_eq_iff a c 11
theorem maskF000 (a c : Addr) : a &&& 0xF000#16 = c ↔ a.toNat / 0x1000 * 0x1000 = c.toNat := and_mask_eq_iff a c 12
theorem maskC000 (a c : Addr) : a &&& 0xC000#16 = c ↔ a.toNat / 0x4000 * 0x4000 = c.toNat := and_mask_eq_iff a c 14
theorem maskFFF8 (a c : Addr) : a &&& 0xFFF8#16 = c ↔ a.toNat / 8 * 8 = c.toNat := and_mask_eq_iff a c 3

/-- The form of a proxy address as a range (`30_encoding.md` R87). -/
theorem isProxyAddr_iff (p : Addr) : isProxyAddr p = true ↔ 0x2000 ≤ p.toNat ∧ p.toNat < 0x2008 := by
  simp only [isProxyAddr, beq_iff_eq, maskFFF8, BitVec.toNat_ofNat]
  omega

/-- A register's proxy address as a number. -/
theorem proxyAddr_toNat (r : BitVec 3) : (proxyAddr r).toNat = 0x2000 + r.toNat := by
  have := r.isLt
  simp only [proxyAddr, BitVec.toNat_add, BitVec.toNat_ofNat, BitVec.toNat_setWidth]
  omega

/-! ## The router, window by window (`41_bus_access.md` R150) -/

theorem route_ram {usel : BankSelect} {a : Addr} (h : a.toNat < 0x2000) :
    route usel a = .cell .ram (a.toNat % 0x0800) := by
  simp [route, h]

theorem route_ppu {usel : BankSelect} {a : Addr} (h : 0x2000 ≤ a.toNat) (h' : a.toNat < 0x4000) :
    route usel a = .ppu (BitVec.ofNat 16 (0x2000 + (a.toNat - 0x2000) % 8)) := by
  simp [route, h', show ¬ a.toNat < 0x2000 by omega]

theorem route_iow {usel : BankSelect} {a : Addr} (h : 0x4000 ≤ a.toNat) (h' : a.toNat < 0x4020) :
    route usel a = .cell .iow (a.toNat - 0x4000) := by
  simp [route, h', show ¬ a.toNat < 0x2000 by omega, show ¬ a.toNat < 0x4000 by omega]

theorem route_exp {usel : BankSelect} {a : Addr} (h : 0x4020 ≤ a.toNat) (h' : a.toNat < 0x8000) :
    route usel a = .cell .exp (a.toNat - 0x4020) := by
  simp [route, h', show ¬ a.toNat < 0x2000 by omega, show ¬ a.toNat < 0x4000 by omega,
    show ¬ a.toNat < 0x4020 by omega]

theorem route_prgl {usel : BankSelect} {a : Addr} (h : 0x8000 ≤ a.toNat) (h' : a.toNat < 0xC000) :
    route usel a = .cell .prgl (a.toNat - 0x8000) := by
  simp [route, h', show ¬ a.toNat < 0x2000 by omega, show ¬ a.toNat < 0x4000 by omega,
    show ¬ a.toNat < 0x4020 by omega, show ¬ a.toNat < 0x8000 by omega]

theorem route_prgu {usel : BankSelect} {a : Addr} (h : 0xC000 ≤ a.toNat) :
    route usel a = .cell (upperBank usel) (a.toNat - 0xC000) := by
  simp [route, show ¬ a.toNat < 0x2000 by omega, show ¬ a.toNat < 0x4000 by omega,
    show ¬ a.toNat < 0x4020 by omega, show ¬ a.toNat < 0x8000 by omega, show ¬ a.toNat < 0xC000 by omega]

/-- A place the primitives accept: an offset below the capacity, or an address of the proxy. -/
def Target.inRange : Target → Prop
  | .cell S o => o < cap S
  | .ppu p => 0x2000 ≤ p.toNat ∧ p.toNat < 0x2008

theorem cap_upperBank (usel : BankSelect) : cap (upperBank usel) = 0x4000 := by
  cases usel <;> rfl

/-- Every place the router finds is in range (R154, R159). -/
theorem route_inRange (usel : BankSelect) (a : Addr) : (route usel a).inRange := by
  have ha := a.isLt
  unfold route
  repeat' split
  · simp only [Target.inRange, cap]; omega
  · simp only [Target.inRange, BitVec.toNat_ofNat]; omega
  · simp only [Target.inRange, cap]; omega
  · simp only [Target.inRange, cap]; omega
  · simp only [Target.inRange, cap]; omega
  · simp only [Target.inRange, cap_upperBank]; omega

end Sys2Proof.Machine
end

