-- ==== Sys2Proof/Laws/Ops.lean ====
section
/-! SUPPORT. What each shared operation can do: with its operands in range it is done, in the state given; outside it
raises the fault, in the state it began in. Then what every one of them keeps. -/

namespace Sys2Proof.Machine

/-! ## The primitives -/

theorem stRead_done {S : Store} {o : Nat} {s : State} (h : o < cap S) : stRead S o s = .done (s.cell S o) s := by
  simp [stRead, h]

theorem stRead_raised {S : Store} {o : Nat} {s : State} (h : cap S ≤ o) :
    stRead S o s = .raised (.storeOffsetOutOfRange S o) s := by
  simp [stRead, Nat.not_lt.mpr h]

theorem stWrite_done {S : Store} {o : Nat} {v : Byte} {s : State} (h : o < cap S) :
    stWrite S o v s = .done () (s.setCell S o v) := by
  simp [stWrite, h]

theorem stWrite_raised {S : Store} {o : Nat} {v : Byte} {s : State} (h : cap S ≤ o) :
    stWrite S o v s = .raised (.storeOffsetOutOfRange S o) s := by
  simp [stWrite, Nat.not_lt.mpr h]

theorem stBulk_done {S : Store} {o : Nat} {bytes : List Byte} {s : State} (h : o + bytes.length ≤ cap S) :
    stBulk S o bytes s = .done () (s.setStore S (Memory.insertRun (s.store S) o bytes)) := by
  simp [stBulk, h]

theorem stBulk_raised {S : Store} {o : Nat} {bytes : List Byte} {s : State} (h : cap S < o + bytes.length) :
    stBulk S o bytes s = .raised (.storeOffsetOutOfRange S (o + bytes.length - 1)) s := by
  simp [stBulk, Nat.not_le.mpr h]

theorem pxRead_done {p : Addr} {s : State} (h : 0x2000 ≤ p.toNat ∧ p.toNat < 0x2008) :
    pxRead p s = .done (Config.proxyAnswer s.draws s.proxyLog p)
      { s with proxyLog := s.proxyLog ++ [.rd p], draws := s.draws + 1 } := by
  simp only [pxRead, if_pos h]

theorem pxRead_raised {p : Addr} {s : State} (h : ¬ (0x2000 ≤ p.toNat ∧ p.toNat < 0x2008)) :
    pxRead p s = .raised (.proxyAddressOutOfRange p) s := by
  simp only [pxRead, if_neg h]

theorem pxWrite_done {p : Addr} {v : Byte} {s : State} (h : 0x2000 ≤ p.toNat ∧ p.toNat < 0x2008) :
    pxWrite p v s = .done () { s with proxyLog := s.proxyLog ++ [.wr p v] } := by
  simp only [pxWrite, if_pos h]

theorem pxWrite_raised {p : Addr} {v : Byte} {s : State} (h : ¬ (0x2000 ≤ p.toNat ∧ p.toNat < 0x2008)) :
    pxWrite p v s = .raised (.proxyAddressOutOfRange p) s := by
  simp only [pxWrite, if_neg h]

@[simp] theorem andThen_done {α β : Type} (v : α) (s : State) (k : α → State → Effect β) :
    andThen (.done v s) k = k v s := rfl

@[simp] theorem andThen_raised {α β : Type} (f : Fault) (s : State) (k : α → State → Effect β) :
    andThen (.raised f s) k = .raised f s := rfl

@[simp] theorem finish_done (r : Result) (s : State) : finish (.done r s) = .next (s.answer r) := rfl

@[simp] theorem finish_raised (f : Fault) (s : State) : finish (.raised f s) = .next (takeFault f s) := rfl

theorem whenLive_live {s : State} (h : s.fault = none) (k : Host.Outcome State Fault Refusal) : whenLive s k = k := by
  simp [whenLive, h]

theorem whenLive_latched {s : State} {f : Fault} (h : s.fault = some f) (k : Host.Outcome State Fault Refusal) :
    whenLive s k = .refused (.faultLatched f) := by
  simp [whenLive, h]

/-- What runs while FAULT is clear answers a next state only then. -/
theorem whenLive_next {s t : State} {k : Host.Outcome State Fault Refusal} (h : whenLive s k = .next t) :
    s.fault = none ∧ k = .next t := by
  unfold whenLive at h
  split at h
  · exact ⟨‹_›, h⟩
  · cases h

/-- How an operation that answers a next state ended. -/
theorem finish_next {e : Effect Result} {t : State} (h : finish e = .next t) :
    (∃ r s, e = .done r s ∧ t = s.answer r) ∨ (∃ f s, e = .raised f s ∧ t = takeFault f s) := by
  cases e with
  | done r s => exact .inl ⟨r, s, rfl, by simpa [eq_comm] using h⟩
  | raised f s => exact .inr ⟨f, s, rfl, by simpa [eq_comm] using h⟩

/-! ## One byte access -/

/-- The byte a read at a place gives. -/
def valueAt (T : Target) (s : State) : Byte :=
  match T with
  | .cell S o => s.cell S o
  | .ppu p => Config.proxyAnswer s.draws s.proxyLog p

/-- The state after a read at a place. -/
def afterRead (T : Target) (a : Addr) (s : State) : State :=
  match T with
  | .cell S o => emit .read a (.store S) (s.cell S o) s
  | .ppu p => emit .read a .ppu (Config.proxyAnswer s.draws s.proxyLog p)
      { s with proxyLog := s.proxyLog ++ [.rd p], draws := s.draws + 1 }

/-- The state after a write at a place. -/
def afterWrite (T : Target) (a : Addr) (v : Byte) (s : State) : State :=
  match T with
  | .cell S o => emit .write a (.store S) v (s.setCell S o v)
  | .ppu p => emit .write a .ppu v { s with proxyLog := s.proxyLog ++ [.wr p v] }

theorem readAt_done {T : Target} (h : T.inRange) (a : Addr) (s : State) :
    readAt T a s = .done (valueAt T s) (afterRead T a s) := by
  cases T with
  | cell S o => simp only [readAt, stRead_done h]; rfl
  | ppu p => simp only [readAt, pxRead_done h]; rfl

theorem writeAt_done {T : Target} (h : T.inRange) (a : Addr) (v : Byte) (s : State) :
    writeAt T a v s = .done () (afterWrite T a v s) := by
  cases T with
  | cell S o => simp only [writeAt, stWrite_done h]; rfl
  | ppu p => simp only [writeAt, pxWrite_done h]; rfl

theorem readByte_done (a : Addr) (s : State) :
    readByte a s = .done (valueAt (route s.usel a) s) (afterRead (route s.usel a) a s) :=
  readAt_done (route_inRange _ _) a s

theorem writeByte_done (a : Addr) (v : Byte) (s : State) :
    writeByte a v s = .done () (afterWrite (route s.usel a) a v s) :=
  writeAt_done (route_inRange _ _) a v s

/-! ## What an access keeps -/

@[simp] theorem afterRead_store (T : Target) (a : Addr) (s : State) (S : Store) :
    (afterRead T a s).store S = s.store S := by
  cases T <;> simp [afterRead]
  cases S <;> rfl

@[simp] theorem afterRead_cell (T : Target) (a : Addr) (s : State) (S : Store) (o : Nat) :
    (afterRead T a s).cell S o = s.cell S o := by
  cases T <;> simp [afterRead, State.cell]
  cases S <;> rfl

@[simp] theorem afterRead_usel (T : Target) (a : Addr) (s : State) : (afterRead T a s).usel = s.usel := by
  cases T <;> simp [afterRead]
@[simp] theorem afterRead_fault (T : Target) (a : Addr) (s : State) : (afterRead T a s).fault = s.fault := by
  cases T <;> simp [afterRead]
@[simp] theorem afterRead_cfg (T : Target) (a : Addr) (s : State) : (afterRead T a s).cfg = s.cfg := by
  cases T <;> simp [afterRead]
@[simp] theorem afterRead_session (T : Target) (a : Addr) (s : State) : (afterRead T a s).session = s.session := by
  cases T <;> simp [afterRead]
@[simp] theorem afterRead_results (T : Target) (a : Addr) (s : State) : (afterRead T a s).results = s.results := by
  cases T <;> simp [afterRead]
@[simp] theorem afterRead_pending (T : Target) (a : Addr) (s : State) : (afterRead T a s).pending = s.pending := by
  cases T <;> simp [afterRead]

@[simp] theorem afterWrite_usel (T : Target) (a : Addr) (v : Byte) (s : State) : (afterWrite T a v s).usel = s.usel := by
  cases T <;> simp [afterWrite]
@[simp] theorem afterWrite_fault (T : Target) (a : Addr) (v : Byte) (s : State) :
    (afterWrite T a v s).fault = s.fault := by
  cases T <;> simp [afterWrite]
@[simp] theorem afterWrite_cfg (T : Target) (a : Addr) (v : Byte) (s : State) : (afterWrite T a v s).cfg = s.cfg := by
  cases T <;> simp [afterWrite]
@[simp] theorem afterWrite_session (T : Target) (a : Addr) (v : Byte) (s : State) :
    (afterWrite T a v s).session = s.session := by
  cases T <;> simp [afterWrite]
@[simp] theorem afterWrite_draws (T : Target) (a : Addr) (v : Byte) (s : State) :
    (afterWrite T a v s).draws = s.draws := by
  cases T <;> simp [afterWrite]
@[simp] theorem afterWrite_results (T : Target) (a : Addr) (v : Byte) (s : State) :
    (afterWrite T a v s).results = s.results := by
  cases T <;> simp [afterWrite]
@[simp] theorem afterWrite_pending (T : Target) (a : Addr) (v : Byte) (s : State) :
    (afterWrite T a v s).pending = s.pending := by
  cases T <;> simp [afterWrite]

/-- A write at a place changes that cell and no other; at the proxy it changes none. -/
theorem afterWrite_cell (T : Target) (a : Addr) (v : Byte) (s : State) (S : Store) (o : Nat) :
    (afterWrite T a v s).cell S o = if T = .cell S o then v else s.cell S o := by
  cases T with
  | cell S' o' =>
    simp only [afterWrite, emit_cell, setCell_cell, Target.cell.injEq]
    by_cases hS : S = S' <;> by_cases ho : o = o' <;> simp [hS, ho, eq_comm]
  | ppu p =>
    simp only [afterWrite, emit_cell, reduceCtorEq, if_false]
    exact with_proxyLog_cell s _ S o

theorem afterRead_wf {T : Target} {a : Addr} {s : State} (hs : s.wf = true) : (afterRead T a s).wf = true :=
  wf_of_store_eq hs fun S => afterRead_store T a s S

theorem afterWrite_wf {T : Target} {a : Addr} {v : Byte} {s : State} (hs : s.wf = true) (hT : T.inRange) :
    (afterWrite T a v s).wf = true := by
  cases T with
  | cell S o => exact wf_of_store_eq (setCell_wf hs hT) fun S' => emit_store _ _ _ _ _ S'
  | ppu p =>
    refine wf_of_store_eq hs fun S => ?_
    simp only [afterWrite, emit_store]
    exact with_proxyLog_store s _ S

theorem answer_wf {s : State} (hs : s.wf = true) (r : Result) : (s.answer r).wf = true :=
  wf_of_store_eq hs fun S => answer_store s r S

theorem takeFault_wf {s : State} (hs : s.wf = true) (f : Fault) : (takeFault f s).wf = true :=
  wf_of_store_eq hs fun S => takeFault_store s f S

theorem powerOn_wf (s : State) : (powerOn s).wf = true := rfl

/-! ## Words -/

/-- Joining two bytes is concatenation (`20_memory.md` R50). -/
theorem joinWord_append (hi lo : Byte) : joinWord hi lo = hi ++ lo := by
  ext i h
  simp [joinWord]
  grind

/-- The halves of a word joined again. -/
theorem joinWord_halves (w : Word) : joinWord (hiByte w) (loByte w) = w := by
  rw [joinWord_append]
  apply BitVec.eq_of_toNat_eq
  have := w.isLt
  simp only [toNat_append_add, hiByte, loByte, extract_toNat]
  omega

theorem readWord_done (a : Addr) (s : State) :
    readWord a s = .done
      (joinWord (valueAt (route s.usel (nextAddr a)) (afterRead (route s.usel a) a s)) (valueAt (route s.usel a) s))
      (afterRead (route s.usel (nextAddr a)) (nextAddr a) (afterRead (route s.usel a) a s)) := by
  simp only [readWord, readByte_done, andThen_done, afterRead_usel]

theorem writeWord_done (a : Addr) (w : Word) (s : State) :
    writeWord a w s = .done ()
      (afterWrite (route s.usel (nextAddr a)) (nextAddr a) (hiByte w) (afterWrite (route s.usel a) a (loByte w) s)) := by
  simp only [writeWord, writeByte_done, andThen_done, afterWrite_usel]

/-! ## INSTALL -/

/-- The state after INSTALL of 1 to 16 KB (`42_program_install.md` R183). -/
def afterInstallSmall (bytes : List Byte) (s : State) : State :=
  { s.setStore .prgl (Memory.insertRun (s.store .prgl) 0 bytes) with usel := .aliased }

/-- The state after INSTALL of more than 16 KB (R181). -/
def afterInstallLarge (bytes : List Byte) (s : State) : State :=
  { (s.setStore .prgl (Memory.insertRun (s.store .prgl) 0 (bytes.take 0x4000))).setStore .prgu
      (Memory.insertRun (s.store .prgu) 0 ((bytes.take 0x8000).drop 0x4000)) with usel := .own }

theorem installProgram_empty (s : State) : installProgram [] s = .raised .emptyProgram s := rfl

theorem installProgram_small {bytes : List Byte} (h : bytes.length ≠ 0) (h' : bytes.length ≤ 0x4000) (s : State) :
    installProgram bytes s = .done () (afterInstallSmall bytes s) := by
  have hb : 0 + bytes.length ≤ cap .prgl := by simp only [cap]; omega
  simp only [installProgram, if_neg h, if_neg (Nat.not_lt.mpr h'), stBulk_done hb, andThen_done, afterInstallSmall]

theorem installProgram_large {bytes : List Byte} (h : 0x4000 < bytes.length) (s : State) :
    installProgram bytes s = .done () (afterInstallLarge bytes s) := by
  have h1 : 0 + (bytes.take 0x4000).length ≤ cap .prgl := by simp only [List.length_take, cap]; omega
  have h2 : 0 + ((bytes.take 0x8000).drop 0x4000).length ≤ cap .prgu := by
    simp only [List.length_take, List.length_drop, cap]; omega
  have hne : bytes.length ≠ 0 := by omega
  simp only [installProgram, if_neg hne, if_pos h, stBulk_done h1, stBulk_done h2, andThen_done, afterInstallLarge,
    setStore_store, reduceCtorEq, if_false]

theorem afterInstallSmall_cell (bytes : List Byte) (s : State) (S : Store) (o : Nat) :
    (afterInstallSmall bytes s).cell S o =
      if S = .prgl ∧ o < bytes.length then bytes.getD o 0#8 else s.cell S o := by
  unfold afterInstallSmall
  rw [with_usel_cell, insertRun_cell]
  simp only [Nat.zero_le, true_and, Nat.zero_add, Nat.sub_zero]

theorem afterInstallLarge_cell (bytes : List Byte) (s : State) (S : Store) (o : Nat) :
    (afterInstallLarge bytes s).cell S o =
      if S = .prgl ∧ o < min 0x4000 bytes.length then bytes.getD o 0#8
      else if S = .prgu ∧ o < min 0x8000 bytes.length - 0x4000 then bytes.getD (0x4000 + o) 0#8
      else s.cell S o := by
  unfold afterInstallLarge
  rw [with_usel_cell]
  have h := insertRun_cell (s.setStore .prgl (Memory.insertRun (s.store .prgl) 0 (bytes.take 0x4000))) .prgu S 0 o
    ((bytes.take 0x8000).drop 0x4000)
  rw [setStore_store, if_neg (by decide)] at h
  rw [h, insertRun_cell]
  simp only [Nat.zero_le, true_and, Nat.zero_add, Nat.sub_zero, List.length_drop, List.length_take]
  cases S <;> simp only [reduceCtorEq, false_and, if_false, true_and]
  · split
    · simp only [List.getD_eq_getElem?_getD]
      rw [List.getElem?_take_of_lt (by omega)]
    · rfl
  · split
    · simp only [List.getD_eq_getElem?_getD, List.getElem?_drop]
      rw [List.getElem?_take_of_lt (by omega)]
    · rfl

theorem afterInstallSmall_wf {bytes : List Byte} {s : State} (hs : s.wf = true) (h : bytes.length ≤ 0x4000) :
    (afterInstallSmall bytes s).wf = true := by
  have hb : 0 + bytes.length ≤ cap .prgl := by simp only [cap]; omega
  exact wf_of_store_eq (setStore_wf hs (wf_insertRun ((wf_iff s).mp hs .prgl) hb)) fun S => with_usel_store _ _ S

theorem afterInstallLarge_wf {bytes : List Byte} {s : State} (hs : s.wf = true) :
    (afterInstallLarge bytes s).wf = true := by
  have h1 : 0 + (bytes.take 0x4000).length ≤ cap .prgl := by simp only [List.length_take, cap]; omega
  have h2 : 0 + ((bytes.take 0x8000).drop 0x4000).length ≤ cap .prgu := by
    simp only [List.length_take, List.length_drop, cap]; omega
  exact wf_of_store_eq (setStore_wf (setStore_wf hs (wf_insertRun ((wf_iff s).mp hs .prgl) h1))
    (wf_insertRun ((wf_iff s).mp hs .prgu) h2)) fun S => with_usel_store _ _ S

end Sys2Proof.Machine
end

