-- ==== Sys2Proof/Laws/Access.lean ====
section
/-! SUPPORT. One byte access as the state the statements speak of (`State.accessed`): the shared operation answers it, and
what it does to each field. -/

namespace Sys2Proof.Machine

/-- A byte access at a place in range answers the accessed state. -/
theorem accessAt_accessed {T : Target} (h : T.inRange) (a : Addr) (acc : Access) (s : State) :
    finish (accessAt T a acc s) = .next (s.accessed T a acc) := by
  cases acc with
  | read =>
    simp only [accessAt, readAt_done h, andThen_done, finish_done]
    cases T <;> simp only [State.accessed, afterRead, valueAt, State.answer, emit, State.traced] <;> split <;> simp_all
  | write v =>
    simp only [accessAt, writeAt_done h, andThen_done, finish_done]
    cases T <;> simp only [State.accessed, afterWrite, State.answer, emit, State.traced]
    · by_cases hc : s.cfg.trace = true <;> simp [hc]
    · split <;> simp_all

theorem accessed_cell (s : State) (T : Target) (a : Addr) (acc : Access) (S : Store) (o : Nat) :
    (s.accessed T a acc).cell S o =
      match acc with
      | .read => s.cell S o
      | .write v => if T = .cell S o then v else s.cell S o := by
  have key : ∀ (u : State) (tr : List TraceEvent) (rs : List Result),
      State.cell { u with trace := tr, results := rs } S o = u.cell S o := by
    intro u tr rs; cases S <;> rfl
  cases T with
  | cell S' o' =>
    cases acc with
    | read => exact key s _ _
    | write v =>
      refine (key (s.setCell S' o' v) _ _).trans ?_
      rw [setCell_cell]
      by_cases hS : S = S' <;> by_cases ho : o = o' <;> simp [hS, ho, eq_comm]
  | ppu p => cases acc <;> cases S <;> rfl

@[simp] theorem accessed_usel (s : State) (T : Target) (a : Addr) (acc : Access) :
    (s.accessed T a acc).usel = s.usel := by
  cases T <;> cases acc <;> simp [State.accessed]

@[simp] theorem accessed_fault (s : State) (T : Target) (a : Addr) (acc : Access) :
    (s.accessed T a acc).fault = s.fault := by
  cases T <;> cases acc <;> simp [State.accessed]

@[simp] theorem accessed_cfg (s : State) (T : Target) (a : Addr) (acc : Access) :
    (s.accessed T a acc).cfg = s.cfg := by
  cases T <;> cases acc <;> simp [State.accessed]

@[simp] theorem accessed_session (s : State) (T : Target) (a : Addr) (acc : Access) :
    (s.accessed T a acc).session = s.session := by
  cases T <;> cases acc <;> simp [State.accessed]

@[simp] theorem accessed_pending (s : State) (T : Target) (a : Addr) (acc : Access) :
    (s.accessed T a acc).pending = s.pending := by
  cases T <;> cases acc <;> simp [State.accessed]

theorem accessed_results (s : State) (T : Target) (a : Addr) (acc : Access) :
    (s.accessed T a acc).results = s.results ++
      [match T, acc with
       | _, .write _ => .ok
       | .cell S o, .read => .byte (s.cell S o)
       | .ppu p, .read => .byte (Config.proxyAnswer s.draws s.proxyLog p)] := by
  cases T <;> cases acc <;> rfl

theorem accessed_proxyLog (s : State) (T : Target) (a : Addr) (acc : Access) :
    (s.accessed T a acc).proxyLog =
      match T, acc with
      | .cell _ _, _ => s.proxyLog
      | .ppu p, .read => s.proxyLog ++ [.rd p]
      | .ppu p, .write v => s.proxyLog ++ [.wr p v] := by
  cases T <;> cases acc <;> simp [State.accessed]

theorem accessed_draws (s : State) (T : Target) (a : Addr) (acc : Access) :
    (s.accessed T a acc).draws =
      match T, acc with
      | .ppu _, .read => s.draws + 1
      | _, _ => s.draws := by
  cases T <;> cases acc <;> simp [State.accessed]

theorem accessed_wf {s : State} {T : Target} (hs : s.wf = true) (hT : T.inRange) (a : Addr) (acc : Access) :
    (s.accessed T a acc).wf = true := by
  cases T with
  | cell S o =>
    cases acc with
    | read => exact wf_of_store_eq hs fun S' => by cases S' <;> rfl
    | write v => exact wf_of_store_eq (setCell_wf (v := v) hs hT) fun S' => by cases S' <;> rfl
  | ppu p => cases acc <;> exact wf_of_store_eq hs fun S' => by cases S' <;> rfl

end Sys2Proof.Machine
end

