-- ==== Sys2Proof/Laws/PerInstr.lean ====
section
/-! SUPPORT. RowMatch: the encoding of every well-formed instruction matches its row of `spec/opcode_table.json`,
`(bits & mask) == match` (`30_encoding.md` R94). One lemma for each constructor. -/

namespace Sys2Proof.Laws.RowMatch

open Sys2Proof.Machine

/-- The instruction's bits match its row of the opcode table. -/
def Statement (i : Instr) : Prop :=
  WellFormed i = true → (encode i).matchesRow (tableRow i).1 (tableRow i).2 = true

/-- The `op` field of a command word alone (`30_encoding.md` R88). -/
theorem cmd_row (op : BitVec 4) (addr data : BitVec 16) :
    cmdWord op addr data &&& BitVec.ofNat 36 0xF00000000 = BitVec.ofNat 36 (op.toNat * 2 ^ 32) := by
  have hm : BitVec.ofNat 36 0xF00000000 = BitVec.allOnes 36 <<< 32 := by decide
  have ha := addr.isLt
  have hd := data.isLt
  have ho := op.isLt
  rw [hm, and_mask_eq_iff]
  simp only [cmdWord, toNat_append_add, BitVec.toNat_ofNat]
  omega

/-- A mask of ones above the low `n` bits keeps the fixed bits of a row and clears its fields. -/
theorem bus_row (m n k : Nat) (h : m + n = 16) (hk : k = n) (fixed : BitVec m) (low : BitVec n) (mask pattern : Nat)
    (hmask : BitVec.ofNat 16 mask = BitVec.allOnes 16 <<< k)
    (hmatch : (BitVec.ofNat 16 pattern).toNat = fixed.toNat * 2 ^ n) :
    ((fixed ++ low).cast h) &&& BitVec.ofNat 16 mask = BitVec.ofNat 16 pattern := by
  have hl := low.isLt
  subst hk
  rw [hmask, and_mask_eq_iff, hmatch, BitVec.toNat_cast, toNat_append_add, Nat.add_comm,
    Nat.add_mul_div_right _ _ (Nat.two_pow_pos _), Nat.div_eq_of_lt hl, Nat.zero_add]

theorem rdb (a : Addr) : Statement (.rdb a) := fun _ => by
  simp only [encode, tableRow, Txn.matchesRow, cmd_row, beq_iff_eq]
  decide

theorem wrb (a : Addr) (v : Byte) : Statement (.wrb a v) := fun _ => by
  simp only [encode, tableRow, Txn.matchesRow, cmd_row, beq_iff_eq]
  decide

theorem rdw (a : Addr) : Statement (.rdw a) := fun _ => by
  simp only [encode, tableRow, Txn.matchesRow, cmd_row, beq_iff_eq]
  decide

theorem wrw (a : Addr) (w : Word) : Statement (.wrw a w) := fun _ => by
  simp only [encode, tableRow, Txn.matchesRow, cmd_row, beq_iff_eq]
  decide

theorem install (bytes : List Byte) : Statement (.install bytes) := fun _ => by
  simp only [encode, tableRow, Txn.matchesRow, cmd_row, beq_iff_eq]
  decide

theorem hdrdec (input : List Byte) : Statement (.hdrdec input) := fun _ => by
  simp only [encode, tableRow, Txn.matchesRow, cmd_row, beq_iff_eq]
  decide

theorem winRam (acc : Access) (mirror : BitVec 2) (offset : BitVec 11) : Statement (.winRam acc mirror offset) := fun _ => by
  simp only [encode, tableRow, Txn.matchesRow, beq_iff_eq, maskE000, toNat_append_add, BitVec.toNat_ofNat]
  have := mirror.isLt; have := offset.isLt; omega

theorem winPpu (acc : Access) (mirror : BitVec 10) (reg : BitVec 3) : Statement (.winPpu acc mirror reg) := fun _ => by
  simp only [encode, tableRow, Txn.matchesRow, beq_iff_eq, maskE000, toNat_append_add, BitVec.toNat_ofNat]
  have := mirror.isLt; have := reg.isLt; omega

theorem winIow (acc : Access) (offset : BitVec 5) : Statement (.winIow acc offset) := fun _ => by
  simp only [encode, tableRow, Txn.matchesRow, beq_iff_eq]
  exact bus_row 11 5 5 rfl rfl _ offset _ _ (by decide) (by decide)

theorem winExp1 (acc : Access) (low : BitVec 5) : Statement (.winExp1 acc low) := fun _ => by
  simp only [encode, tableRow, Txn.matchesRow, beq_iff_eq]
  exact bus_row 11 5 5 rfl rfl _ low _ _ (by decide) (by decide)

theorem winExp2 (acc : Access) (low : BitVec 6) : Statement (.winExp2 acc low) := fun _ => by
  simp only [encode, tableRow, Txn.matchesRow, beq_iff_eq]
  exact bus_row 10 6 6 rfl rfl _ low _ _ (by decide) (by decide)

theorem winExp3 (acc : Access) (low : BitVec 7) : Statement (.winExp3 acc low) := fun _ => by
  simp only [encode, tableRow, Txn.matchesRow, beq_iff_eq]
  exact bus_row 9 7 7 rfl rfl _ low _ _ (by decide) (by decide)

theorem winExp4 (acc : Access) (low : BitVec 8) : Statement (.winExp4 acc low) := fun _ => by
  simp only [encode, tableRow, Txn.matchesRow, beq_iff_eq]
  exact bus_row 8 8 8 rfl rfl _ low _ _ (by decide) (by decide)

theorem winExp5 (acc : Access) (low : BitVec 9) : Statement (.winExp5 acc low) := fun _ => by
  simp only [encode, tableRow, Txn.matchesRow, beq_iff_eq]
  exact bus_row 7 9 9 rfl rfl _ low _ _ (by decide) (by decide)

theorem winExp6 (acc : Access) (low : BitVec 10) : Statement (.winExp6 acc low) := fun _ => by
  simp only [encode, tableRow, Txn.matchesRow, beq_iff_eq]
  exact bus_row 6 10 10 rfl rfl _ low _ _ (by decide) (by decide)

theorem winExp7 (acc : Access) (low : BitVec 11) : Statement (.winExp7 acc low) := fun _ => by
  simp only [encode, tableRow, Txn.matchesRow, beq_iff_eq]
  exact bus_row 5 11 11 rfl rfl _ low _ _ (by decide) (by decide)

theorem winExp8 (acc : Access) (low : BitVec 12) : Statement (.winExp8 acc low) := fun _ => by
  simp only [encode, tableRow, Txn.matchesRow, beq_iff_eq]
  exact bus_row 4 12 12 rfl rfl _ low _ _ (by decide) (by decide)

theorem winExp9 (acc : Access) (low : BitVec 13) : Statement (.winExp9 acc low) := fun _ => by
  simp only [encode, tableRow, Txn.matchesRow, beq_iff_eq]
  exact bus_row 3 13 13 rfl rfl _ low _ _ (by decide) (by decide)

theorem winPrgl (acc : Access) (offset : BitVec 14) : Statement (.winPrgl acc offset) := fun _ => by
  simp only [encode, tableRow, Txn.matchesRow, beq_iff_eq]
  exact bus_row 2 14 14 rfl rfl _ offset _ _ (by decide) (by decide)

theorem winPrgu (acc : Access) (offset : BitVec 14) : Statement (.winPrgu acc offset) := fun _ => by
  simp only [encode, tableRow, Txn.matchesRow, beq_iff_eq]
  exact bus_row 2 14 14 rfl rfl _ offset _ _ (by decide) (by decide)

theorem pxRd (p : Addr) : Statement (.pxRd p) := fun h => h

theorem pxWr (p : Addr) (v : Byte) : Statement (.pxWr p v) := fun h => h

theorem hdrB0 (b : Byte) : Statement (.hdrB0 b) := fun h => by
  obtain rfl := beq_iff_eq.mp h
  rfl

theorem hdrB1 (b : Byte) : Statement (.hdrB1 b) := fun h => by
  obtain rfl := beq_iff_eq.mp h
  rfl

theorem hdrB2 (b : Byte) : Statement (.hdrB2 b) := fun h => by
  obtain rfl := beq_iff_eq.mp h
  rfl

theorem hdrB3 (b : Byte) : Statement (.hdrB3 b) := fun h => by
  obtain rfl := beq_iff_eq.mp h
  rfl

theorem hdrB4 (lsb : Byte) : Statement (.hdrB4 lsb) := fun _ => by
  simp [encode, tableRow, Txn.matchesRow]

theorem hdrB5 (lsb : Byte) : Statement (.hdrB5 lsb) := fun _ => by
  simp [encode, tableRow, Txn.matchesRow]

theorem hdrB6 (mapperLo : BitVec 4) (fourScreen : Bool) (trainer : Bool) (battery : Bool) (vertical : Bool) : Statement (.hdrB6 mapperLo fourScreen trainer battery vertical) := fun _ => by
  simp [encode, tableRow, Txn.matchesRow]

theorem hdrB7Ext (mid : BitVec 4) (console : BitVec 2) : Statement (.hdrB7Ext mid console) := fun _ => by
  simp only [encode, tableRow, Txn.matchesRow, beq_iff_eq]
  ext i hi
  simp only [BitVec.getElem_and, BitVec.getElem_append]
  interval_cases i <;> simp

theorem hdrB7Leg00 (mid : BitVec 4) (flags : BitVec 2) : Statement (.hdrB7Leg00 mid flags) := fun _ => by
  simp only [encode, tableRow, Txn.matchesRow, beq_iff_eq]
  ext i hi
  simp only [BitVec.getElem_and, BitVec.getElem_append]
  interval_cases i <;> simp

theorem hdrB7Leg01 (mid : BitVec 4) (flags : BitVec 2) : Statement (.hdrB7Leg01 mid flags) := fun _ => by
  simp only [encode, tableRow, Txn.matchesRow, beq_iff_eq]
  ext i hi
  simp only [BitVec.getElem_and, BitVec.getElem_append]
  interval_cases i <;> simp

theorem hdrB7Leg11 (mid : BitVec 4) (flags : BitVec 2) : Statement (.hdrB7Leg11 mid flags) := fun _ => by
  simp only [encode, tableRow, Txn.matchesRow, beq_iff_eq]
  ext i hi
  simp only [BitVec.getElem_and, BitVec.getElem_append]
  interval_cases i <;> simp

theorem hdrB8 (submapper : BitVec 4) (mapperHi : BitVec 4) : Statement (.hdrB8 submapper mapperHi) := fun _ => by
  simp [encode, extByte, tableRow, Txn.matchesRow]

theorem hdrB9 (chr : BitVec 4) (prg : BitVec 4) : Statement (.hdrB9 chr prg) := fun _ => by
  simp [encode, extByte, tableRow, Txn.matchesRow]

theorem hdrB10 (nvram : BitVec 4) (ram : BitVec 4) : Statement (.hdrB10 nvram ram) := fun _ => by
  simp [encode, extByte, tableRow, Txn.matchesRow]

theorem hdrB11 (nvram : BitVec 4) (ram : BitVec 4) : Statement (.hdrB11 nvram ram) := fun _ => by
  simp [encode, extByte, tableRow, Txn.matchesRow]

theorem hdrB12 (timing : BitVec 2) : Statement (.hdrB12 timing) := fun _ => by
  simp [encode, extByte, tableRow, Txn.matchesRow]

theorem hdrB13Vs (hw : BitVec 4) (ppu : BitVec 4) : Statement (.hdrB13Vs hw ppu) := fun _ => by
  simp [encode, extByte, tableRow, Txn.matchesRow]

theorem hdrB13Extcon (console : BitVec 4) : Statement (.hdrB13Extcon console) := fun _ => by
  simp [encode, extByte, tableRow, Txn.matchesRow]

theorem hdrB13Ign : Statement (.hdrB13Ign) := fun _ => by
  simp [encode, extByte, tableRow, Txn.matchesRow]

theorem hdrB14 (roms : BitVec 2) : Statement (.hdrB14 roms) := fun _ => by
  simp [encode, extByte, tableRow, Txn.matchesRow]

theorem hdrB15 (device : BitVec 6) : Statement (.hdrB15 device) := fun _ => by
  simp [encode, extByte, tableRow, Txn.matchesRow]

end Sys2Proof.Laws.RowMatch
end

