-- ==== Sys2Proof/Laws/Step.lean ====
section
/-! SUPPORT. What an instruction and a step can do, said once: if it answers a next state, then that state is one of
these. -/

namespace Sys2Proof.Machine

/-- What runs while FAULT is clear, and answers a next state, ran with FAULT clear. -/
theorem live_of_next {s t : State} {k : Host.Outcome State Fault Refusal} (h : whenLive s k = .next t) :
    s.fault = none :=
  (whenLive_next h).1

/-- A window row is the byte access at the address its bits spell, at the place the router finds. -/
theorem exec_of_bus {i : Instr} {a : Addr} {acc : Access} (h : encode i = .bus a acc) (s : State) :
    exec i s = whenLive s (finish (accessAt (route s.usel a) a acc s)) := by
  cases i <;> simp only [encode, Txn.bus.injEq, reduceCtorEq, extByte] at h
  case winRam acc' m o =>
    obtain ⟨rfl, rfl⟩ := h
    have e : (0b000#3 ++ m ++ o : Addr).toNat = m.toNat * 2048 + o.toNat := by
      simp only [toNat_append_add, BitVec.toNat_ofNat]; omega
    have := m.isLt
    rw [route_ram (by omega), show (0b000#3 ++ m ++ o : Addr).toNat % 0x800 = o.toNat by omega]
    rfl
  case winPpu acc' m r =>
    obtain ⟨rfl, rfl⟩ := h
    have e : (0b001#3 ++ m ++ r : Addr).toNat = 0x2000 + m.toNat * 8 + r.toNat := by
      simp only [toNat_append_add, BitVec.toNat_ofNat]; omega
    have := m.isLt
    have hp : BitVec.ofNat 16 (0x2000 + ((0b001#3 ++ m ++ r : Addr).toNat - 0x2000) % 8) = proxyAddr r := by
      apply BitVec.eq_of_toNat_eq
      rw [proxyAddr_toNat, BitVec.toNat_ofNat]; omega
    rw [route_ppu (by omega) (by omega), hp]
    rfl
  case winIow acc' o =>
    obtain ⟨rfl, rfl⟩ := h
    have e : (0b01000000000#11 ++ o : Addr).toNat = 0x4000 + o.toNat := by
      simp only [toNat_append_add, BitVec.toNat_ofNat]; omega
    rw [route_iow (by omega) (by omega), show (0b01000000000#11 ++ o : Addr).toNat - 0x4000 = o.toNat by omega]
    rfl
  case winPrgl acc' o =>
    obtain ⟨rfl, rfl⟩ := h
    have e : (0b10#2 ++ o : Addr).toNat = 0x8000 + o.toNat := by
      simp only [toNat_append_add, BitVec.toNat_ofNat]; omega
    rw [route_prgl (by omega) (by omega), show (0b10#2 ++ o : Addr).toNat - 0x8000 = o.toNat by omega]
    rfl
  case winPrgu acc' o =>
    obtain ⟨rfl, rfl⟩ := h
    have e : (0b11#2 ++ o : Addr).toNat = 0xC000 + o.toNat := by
      simp only [toNat_append_add, BitVec.toNat_ofNat]; omega
    rw [route_prgu (by omega), show (0b11#2 ++ o : Addr).toNat - 0xC000 = o.toNat by omega]
    rfl
  all_goals
    rename_i acc' o
    obtain ⟨rfl, rfl⟩ := h
    have := o.isLt
    rw [route_exp (by simp only [toNat_append_add, BitVec.toNat_ofNat]; omega)
      (by simp only [toNat_append_add, BitVec.toNat_ofNat]; omega)]
    rfl

/-- The instruction is one byte access at `a` in the direction `acc`. -/
def IsAccess (i : Instr) (a : Addr) (acc : Access) : Prop :=
  encode i = .bus a acc ∨ (i = .rdb a ∧ acc = .read) ∨ ∃ v, i = .wrb a v ∧ acc = .write v

theorem exec_access {i : Instr} {a : Addr} {acc : Access} (h : IsAccess i a acc) (s : State) :
    exec i s = whenLive s (finish (accessAt (route s.usel a) a acc s)) := by
  obtain h | ⟨rfl, rfl⟩ | ⟨v, rfl, rfl⟩ := h
  · exact exec_of_bus h s
  · simp only [exec, execRdb, readByte, accessAt]
  · simp only [exec, execWrb, writeByte, accessAt]

/-- The next states of an instruction, case by case. -/
inductive ExecNext (s t : State) : Instr → Prop
  | access (i : Instr) (a : Addr) (acc : Access) (shape : IsAccess i a acc) (live : s.fault = none)
      (state : t = s.accessed (route s.usel a) a acc) : ExecNext s t i
  | rdw (a : Addr) (w : Word) (live : s.fault = none)
      (state : t = (afterRead (route s.usel (nextAddr a)) (nextAddr a) (afterRead (route s.usel a) a s)).answer
        (.word w)) : ExecNext s t (.rdw a)
  | wrw (a : Addr) (w : Word) (live : s.fault = none)
      (state : t = (afterWrite (route s.usel (nextAddr a)) (nextAddr a) (hiByte w)
        (afterWrite (route s.usel a) a (loByte w) s)).answer .ok) : ExecNext s t (.wrw a w)
  | installEmpty (live : s.fault = none) (state : t = takeFault .emptyProgram s) : ExecNext s t (.install [])
  | installSmall (bytes : List Byte) (live : s.fault = none) (pos : bytes.length ≠ 0) (small : bytes.length ≤ 0x4000)
      (state : t = (afterInstallSmall bytes s).answer .ok) : ExecNext s t (.install bytes)
  | installLarge (bytes : List Byte) (live : s.fault = none) (large : 0x4000 < bytes.length)
      (state : t = (afterInstallLarge bytes s).answer .ok) : ExecNext s t (.install bytes)
  | pxRd (p : Addr) (v : Byte) (live : s.fault = none) (range : 0x2000 ≤ p.toNat ∧ p.toNat < 0x2008)
      (state : t = State.answer { s with proxyLog := s.proxyLog ++ [.rd p], draws := s.draws + 1 } (.byte v)) :
      ExecNext s t (.pxRd p)
  | pxWr (p : Addr) (v : Byte) (live : s.fault = none) (range : 0x2000 ≤ p.toNat ∧ p.toNat < 0x2008)
      (state : t = State.answer { s with proxyLog := s.proxyLog ++ [.wr p v] } .ok) : ExecNext s t (.pxWr p v)
  | pxFault (i : Instr) (p : Addr) (shape : i = .pxRd p ∨ ∃ v, i = .pxWr p v) (live : s.fault = none)
      (range : ¬ (0x2000 ≤ p.toNat ∧ p.toNat < 0x2008)) (state : t = takeFault (.proxyAddressOutOfRange p) s) :
      ExecNext s t i
  | pure (i : Instr) (r : Result) (state : t = s.answer r) : ExecNext s t i

theorem execNext_access {i : Instr} {a : Addr} {acc : Access} {s t : State} (shape : IsAccess i a acc)
    (h : exec i s = .next t) : ExecNext s t i := by
  rw [exec_access shape] at h
  obtain ⟨live, h⟩ := whenLive_next h
  rw [accessAt_accessed (route_inRange _ _)] at h
  exact .access i a acc shape live (by simpa [eq_comm] using h)

theorem execNext_install {bytes : List Byte} {s t : State} (h : exec (.install bytes) s = .next t) :
    ExecNext s t (.install bytes) := by
  obtain ⟨live, h⟩ := whenLive_next (k := finish _) h
  rcases Nat.eq_zero_or_pos bytes.length with h0 | h0
  · obtain rfl := List.length_eq_zero_iff.mp h0
    exact .installEmpty live (by simpa [installProgram_empty, eq_comm] using h)
  rcases Nat.lt_or_ge 0x4000 bytes.length with h1 | h1
  · rw [installProgram_large h1] at h
    exact .installLarge bytes live h1 (by simpa [eq_comm] using h)
  · rw [installProgram_small (by omega) h1] at h
    exact .installSmall bytes live (by omega) h1 (by simpa [eq_comm] using h)

theorem execNext_pxRd {p : Addr} {s t : State} (h : exec (.pxRd p) s = .next t) : ExecNext s t (.pxRd p) := by
  obtain ⟨live, h⟩ := whenLive_next (k := finish _) h
  by_cases range : 0x2000 ≤ p.toNat ∧ p.toNat < 0x2008
  · rw [pxRead_done range] at h
    exact .pxRd p _ live range (by simpa [eq_comm] using h)
  · rw [pxRead_raised range] at h
    exact .pxFault _ p (.inl rfl) live range (by simpa [eq_comm] using h)

theorem execNext_pxWr {p : Addr} {v : Byte} {s t : State} (h : exec (.pxWr p v) s = .next t) :
    ExecNext s t (.pxWr p v) := by
  obtain ⟨live, h⟩ := whenLive_next (k := finish _) h
  by_cases range : 0x2000 ≤ p.toNat ∧ p.toNat < 0x2008
  · rw [pxWrite_done range] at h
    exact .pxWr p v live range (by simpa [eq_comm] using h)
  · rw [pxWrite_raised range] at h
    exact .pxFault _ p (.inr ⟨v, rfl⟩) live range (by simpa [eq_comm] using h)

theorem execNext_idByte {b expected : Byte} {s t : State} {i : Instr} (h : giveIdByte b expected s = .next t) :
    ExecNext s t i := by
  unfold giveIdByte at h
  split at h
  · exact .pure i (.part (.idByte b)) (by simpa [givePart, eq_comm] using h)
  · exact .pure i (.parseFailure .invalidFormat) (by simpa [eq_comm] using h)

/-- Every next state of an instruction is one of `ExecNext`'s. -/
theorem exec_next {i : Instr} {s t : State} (h : exec i s = .next t) : ExecNext s t i := by
  cases i
  case rdb a => exact execNext_access (.inr (.inl ⟨rfl, rfl⟩)) h
  case wrb a v => exact execNext_access (.inr (.inr ⟨v, rfl, rfl⟩)) h
  case rdw a =>
    obtain ⟨live, h⟩ := whenLive_next (k := finish _) h
    rw [readWord_done] at h
    exact .rdw a _ live (by simpa [eq_comm] using h)
  case wrw a w =>
    obtain ⟨live, h⟩ := whenLive_next (k := finish _) h
    rw [writeWord_done] at h
    exact .wrw a w live (by simpa [eq_comm] using h)
  case install bytes => exact execNext_install h
  case hdrdec input =>
    simp only [exec, execHdrdec] at h
    split at h
    · exact .pure _ (.header _) (by simpa [eq_comm] using h)
    · exact .pure _ (.parseFailure _) (by simpa [eq_comm] using h)
  case pxRd p => exact execNext_pxRd h
  case pxWr p v => exact execNext_pxWr h
  case hdrB0 b => exact execNext_idByte h
  case hdrB1 b => exact execNext_idByte h
  case hdrB2 b => exact execNext_idByte h
  case hdrB3 b => exact execNext_idByte h
  all_goals first
    | exact execNext_access (.inl rfl) h
    | (injection h with h; exact .pure _ _ h.symm)

/-- No instruction answers the fault outcome: a fatal fault is taken. -/
theorem exec_ne_fault (i : Instr) (s : State) (f : Fault) : exec i s ≠ .fault f := by
  have hk : ∀ e : Effect Result, whenLive s (finish e) ≠ .fault f := by
    intro e
    unfold whenLive
    split
    · cases e <;> simp
    · simp
  have hid : ∀ b expected : Byte, giveIdByte b expected s ≠ .fault f := by
    intro b expected
    unfold giveIdByte
    split <;> simp [givePart]
  cases i
  case hdrdec input =>
    simp only [exec, execHdrdec]
    split <;> simp
  all_goals first
    | exact hk _
    | exact hid _ _
    | (intro h; cases h)

/-- The next states of a step, case by case. -/
inductive StepNext (s t : State) : Prop
  | idle (queue : s.pending = []) (state : t = s)
  | instr (x : Txn) (i : Instr) (rest : List Request) (queue : s.pending = .txn x :: rest) (dec : decode x = .ok i)
      (run : exec i { s with pending := rest } = .next t)
  | reset (rest : List Request) (queue : s.pending = .reset :: rest) (state : t = powerOn { s with pending := rest })
  | badCart (file : List Byte) (rest : List Request) (e : ParseFailure) (queue : s.pending = .loadCart file :: rest)
      (dec : headerDecode s.cfg.magic (file.take 16) = .error e)
      (state : t = State.answer { s with pending := rest } (.parseFailure e))
  | cart (file : List Byte) (rest : List Request) (r : CartridgeHeader) (queue : s.pending = .loadCart file :: rest)
      (dec : headerDecode s.cfg.magic (file.take 16) = .ok r)
      (state : t = issueFirst (State.answer { s with pending := rest } (.header r))
        (.txn (installTxn (programBytes s.cfg r file))))

/-- Every next state of a step is one of `StepNext`'s. -/
theorem step_next {s t : State} (h : step s = .next t) : StepNext s t := by
  rcases queue : s.pending with _ | ⟨q, rest⟩
  · simp only [step, takeRequest, queue] at h
    exact .idle queue (by simpa [eq_comm] using h)
  cases q with
  | txn x =>
    simp only [step, takeRequest, queue] at h
    rcases dec : decode x with e | i
    · rw [dec] at h; cases h
    · rw [dec] at h; exact .instr x i rest queue dec h
  | reset =>
    simp only [step, takeRequest, queue] at h
    exact .reset rest queue (by simpa [eq_comm] using h)
  | loadCart file =>
    simp only [step, takeRequest, queue, loadCart, execHdrdec] at h
    rcases dec : headerDecode s.cfg.magic (file.take 16) with e | r
    · rw [dec] at h; exact .badCart file rest e queue dec (by simpa [eq_comm] using h)
    · rw [dec] at h; exact .cart file rest r queue dec (by simpa [eq_comm] using h)

end Sys2Proof.Machine
end

