-- ==== Sys2Proof/Tests/Slice0.lean ====
section
/-! SUPPORT. Tests whose expected results are the spec's own words and vectors (`30_encoding.md`, `95_test_vectors.md`), and
for every statement that has hypotheses a witness that meets them. -/

namespace Sys2Proof.Tests

open Sys2Proof.Machine

/-! ## Small states and headers -/

/-- The state after an instruction, if there is one. -/
def after (i : Instr) (s : State) : Option State :=
  match exec i s with
  | .next t => some t
  | .fault _ => none
  | .refused _ => none

/-- The state after a step, if there is one. -/
def afterStep (s : State) : Option State :=
  match step s with
  | .next t => some t
  | .fault _ => none
  | .refused _ => none

/-- `RAM[0x005] = 0xAB`. -/
def ram5 : State := { State.reset with ram := [(0x005, 0xAB#8)] }

/-- The alias state, with one byte in the lower bank. -/
def aliasState : State := { State.reset with usel := .aliased, prgl := [(0x3FFC, 0xE7#8)] }

/-- A state with FAULT set. -/
def faulted : State := { State.reset with fault := some .emptyProgram }

/-- The identification bytes and twelve more. -/
def header (rest : List Byte) : List Byte := [0x4E#8, 0x45#8, 0x53#8, 0x1A#8] ++ rest

/-- H2 of `95_test_vectors.md`: legacy, vertical. -/
def legacyHeader : List Byte :=
  header [0#8, 0#8, 0x01#8, 0#8, 0#8, 0#8, 0#8, 0#8, 0#8, 0#8, 0#8, 0#8]

/-- H6: legacy, bytes 8 to 15 all FF. -/
def legacyHeaderFF : List Byte :=
  header ([0x01#8, 0x01#8, 0x00#8, 0x00#8] ++ List.replicate 8 0xFF#8)

/-- H3: extended, standard console. -/
def extHeader : List Byte :=
  header [0x02#8, 0x01#8, 0x13#8, 0x48#8, 0x21#8, 0x10#8, 0x70#8, 0x07#8, 0x01#8, 0#8, 0#8, 0x01#8]

/-- H4: extended, Vs. System. -/
def vsHeader : List Byte :=
  header [0x02#8, 0x01#8, 0#8, 0x09#8, 0#8, 0#8, 0#8, 0#8, 0#8, 0x52#8, 0#8, 0#8]

/-- H5: extended, extended console. -/
def extConsoleHeader : List Byte :=
  header [0x01#8, 0#8, 0#8, 0x0B#8, 0#8, 0#8, 0#8, 0#8, 0#8, 0xF4#8, 0#8, 0#8]

/-- H12: extended, four-screen, the sizes that tell shift-and-OR from digit strings. -/
def fourScreenHeader : List Byte :=
  header [0#8, 0#8, 0x08#8, 0x08#8, 0#8, 0x01#8, 0#8, 0#8, 0xFD#8, 0x77#8, 0x02#8, 0xC1#8]

/-- A field of the record a header decodes to. -/
def field {α : Type} (f : CartridgeHeader → α) (input : List Byte) : Option α :=
  match headerDecode State.reset.cfg.magic input with
  | .ok r => some (f r)
  | .error _ => none

/-- The parse failure of a header. -/
def failure (input : List Byte) : Option ParseFailure :=
  match headerDecode State.reset.cfg.magic input with
  | .ok _ => none
  | .error e => some e

/-! ## WellFormed refuses an ill-formed term for each check -/

theorem test_wf_pxRd : WellFormed (.pxRd 0x2007#16) = true ∧ WellFormed (.pxRd 0x2008#16) = false := by decide
theorem test_wf_pxWr : WellFormed (.pxWr 0x2000#16 1#8) = true ∧ WellFormed (.pxWr 0x1FFF#16 1#8) = false := by decide
theorem test_wf_hdrB0 : WellFormed (.hdrB0 0x4E#8) = true ∧ WellFormed (.hdrB0 0x4F#8) = false := by decide
theorem test_wf_hdrB1 : WellFormed (.hdrB1 0x45#8) = true ∧ WellFormed (.hdrB1 0x65#8) = false := by decide
theorem test_wf_hdrB2 : WellFormed (.hdrB2 0x53#8) = true ∧ WellFormed (.hdrB2 0x73#8) = false := by decide
theorem test_wf_hdrB3 : WellFormed (.hdrB3 0x1A#8) = true ∧ WellFormed (.hdrB3 0x1B#8) = false := by decide

/-! ## Decoding: one written-out word for every constructor -/

/-- `CMD36` (R88, R89; the words of `95_test_vectors.md` 2.4 and 2.5). -/
theorem test_decode_cmd :
    decode (.cmd 0x018050000#36 []) = .ok (.rdb 0x1805#16) ∧
    decode (.cmd 0x1000501AB#36 []) = .ok (.wrb 0x0005#16 0xAB#8) ∧
    decode (.cmd 0x208100000#36 []) = .ok (.rdw 0x0810#16) ∧
    decode (.cmd 0x30100BEEF#36 []) = .ok (.wrw 0x0100#16 0xBEEF#16) ∧
    decode (.cmd 0x400000000#36 [7#8]) = .ok (.install [7#8]) ∧
    decode (.cmd 0x500000000#36 [7#8]) = .ok (.hdrdec [7#8]) := by decide

/-- Reserved codes (`95_test_vectors.md` 2.8). -/
theorem test_decode_reserved :
    decode (.cmd 0x600000000#36 []) = .error (.reservedOpcode 0x6#4) ∧
    decode (.cmd 0xFFFFFFFFF#36 []) = .error (.reservedOpcode 0xF#4) := by decide

/-- `A16`: RAM, proxy window, IO window (R86). -/
theorem test_decode_low_windows :
    decode (.bus 0b0001100000000101#16 .read) = .ok (.winRam .read 0b11#2 0x005#11) ∧
    decode (.bus 0b0011111111111010#16 .read) = .ok (.winPpu .read 0b1111111111#10 0b010#3) ∧
    decode (.bus 0b0100000000011111#16 (.write 1#8)) = .ok (.winIow (.write 1#8) 0x1F#5) := by decide

/-- `A16`: the nine expansion rows (R86). -/
theorem test_decode_exp :
    decode (.bus 0b0100000000100001#16 .read) = .ok (.winExp1 .read 0x01#5) ∧
    decode (.bus 0b0100000001000010#16 .read) = .ok (.winExp2 .read 0x02#6) ∧
    decode (.bus 0b0100000010000011#16 .read) = .ok (.winExp3 .read 0x03#7) ∧
    decode (.bus 0b0100000100000100#16 .read) = .ok (.winExp4 .read 0x04#8) ∧
    decode (.bus 0b0100001000000101#16 .read) = .ok (.winExp5 .read 0x005#9) ∧
    decode (.bus 0b0100010000000110#16 .read) = .ok (.winExp6 .read 0x006#10) ∧
    decode (.bus 0b0100100000000111#16 .read) = .ok (.winExp7 .read 0x007#11) ∧
    decode (.bus 0b0101000000001000#16 .read) = .ok (.winExp8 .read 0x008#12) ∧
    decode (.bus 0b0110000000001001#16 .read) = .ok (.winExp9 .read 0x0009#13) := by decide

/-- `A16`: the program windows (R86). -/
theorem test_decode_program_windows :
    decode (.bus 0b1011111111111111#16 .read) = .ok (.winPrgl .read 0x3FFF#14) ∧
    decode (.bus 0b1100000000010000#16 (.write 0x99#8)) = .ok (.winPrgu (.write 0x99#8) 0x0010#14) := by decide

/-- `PXA16` (R87): the direction signal chooses the row. -/
theorem test_decode_proxy :
    decode (.proxy 0b0010000000000010#16 .read) = .ok (.pxRd 0x2002#16) ∧
    decode (.proxy 0b0010000000000110#16 (.write 0x3F#8)) = .ok (.pxWr 0x2006#16 0x3F#8) := by decide

/-- `HDR8` (R81), bytes 0 to 6. -/
theorem test_decode_header_0_to_6 :
    decode (.header 0 0#8 0x4E#8) = .ok (.hdrB0 0x4E#8) ∧ decode (.header 1 0#8 0x45#8) = .ok (.hdrB1 0x45#8) ∧
    decode (.header 2 0#8 0x53#8) = .ok (.hdrB2 0x53#8) ∧ decode (.header 3 0#8 0x1A#8) = .ok (.hdrB3 0x1A#8) ∧
    decode (.header 4 0#8 0x02#8) = .ok (.hdrB4 2#8) ∧ decode (.header 5 0#8 0x01#8) = .ok (.hdrB5 1#8) ∧
    decode (.header 6 0#8 0b01000110#8) = .ok (.hdrB6 4#4 false true true false) := by decide

/-- `HDR8` (R81), byte 7: the version field is bits 3 and 2. -/
theorem test_decode_header_7 :
    decode (.header 7 0#8 0b01001001#8) = .ok (.hdrB7Ext 4#4 1#2) ∧
    decode (.header 7 0#8 0b11110011#8) = .ok (.hdrB7Leg00 15#4 3#2) ∧
    decode (.header 7 0#8 0b00100110#8) = .ok (.hdrB7Leg01 2#4 2#2) ∧
    decode (.header 7 0#8 0b00001100#8) = .ok (.hdrB7Leg11 0#4 0#2) := by decide

/-- `HDR8` (R81), bytes 8 to 15 of an extended header; byte 13 is read as byte 7's console type says. -/
theorem test_decode_header_8_to_15 :
    decode (.header 8 0x08#8 0x21#8) = .ok (.hdrB8 2#4 1#4) ∧ decode (.header 9 0x08#8 0x10#8) = .ok (.hdrB9 1#4 0#4) ∧
    decode (.header 10 0x08#8 0x70#8) = .ok (.hdrB10 7#4 0#4) ∧
    decode (.header 11 0x08#8 0x07#8) = .ok (.hdrB11 0#4 7#4) ∧
    decode (.header 12 0x08#8 0xFD#8) = .ok (.hdrB12 1#2) ∧
    decode (.header 13 0x09#8 0x52#8) = .ok (.hdrB13Vs 5#4 2#4) ∧
    decode (.header 13 0x0B#8 0xF4#8) = .ok (.hdrB13Extcon 4#4) ∧
    decode (.header 13 0x0A#8 0x52#8) = .ok .hdrB13Ign ∧ decode (.header 13 0x08#8 0x77#8) = .ok .hdrB13Ign ∧
    decode (.header 14 0x08#8 0x02#8) = .ok (.hdrB14 2#2) ∧ decode (.header 15 0x08#8 0xC1#8) = .ok (.hdrB15 1#6) := by
  decide

/-- A byte 8 to 15 of a legacy header is ignored, whatever it and the console bits hold (R84). -/
theorem test_decode_legacy_byte :
    decode (.header 8 0x04#8 0x21#8) = .ok .hdrB13Ign ∧ decode (.header 13 0x01#8 0x52#8) = .ok .hdrB13Ign ∧
    decode (.header 13 0x0F#8 0x52#8) = .ok .hdrB13Ign ∧ decode (.header 15 0x0C#8 0xC1#8) = .ok .hdrB13Ign := by decide

/-- The decoder on opcode-table bits, and a step that runs them as the first instruction. -/
theorem test_table_word :
    decodeTableWord 36 0x1000500AB = some (.wrb 0x0005#16 0xAB#8) ∧
    decodeTableWord 16 0x1805 = some (.winRam .read 3#2 0x005#11) ∧ decodeTableWord 8 0x4E = some (.hdrB0 0x4E#8) ∧
    decodeTableWord 36 0x600000000 = none := by decide

theorem test_fetch_word :
    (afterStep (State.reset.withFetchWord 36 0x1000500AB)).map State.ram = some [(0x005, 0xAB#8)] := by decide

/-! ## Accesses (`95_test_vectors.md` 2.4, 2.5) -/

theorem test_rdb_mirror : (after (.rdb 0x1805#16) ram5).map State.results = some [.byte 0xAB#8] := by decide

theorem test_rdb_proxy : (after (.rdb 0x3FFA#16) State.reset).map State.proxyLog = some [.rd 0x2002#16] := by decide

theorem test_wrb_mirror : (after (.wrb 0x0805#16 0x11#8) ram5).map State.ram = some [(0x005, 0x11#8)] := by decide

theorem test_wrb_proxy :
    (after (.wrb 0x3FF9#16 0x1E#8) State.reset).map State.proxyLog = some [.wr 0x2001#16 0x1E#8] := by decide

theorem test_wrb_exp : (after (.wrb 0x6000#16 0x77#8) State.reset).map State.exp = some [(0x1FE0, 0x77#8)] := by decide

theorem test_wrb_alias :
    (after (.wrb 0xC010#16 0x99#8) aliasState).map State.prgl = some [(0x0010, 0x99#8), (0x3FFC, 0xE7#8)] := by decide

theorem test_rdw_order :
    (after (.rdw 0x0810#16) { State.reset with ram := [(0x010, 0x34#8), (0x011, 0x12#8)] }).map State.results =
      some [.word 0x1234#16] := by decide

theorem test_rdw_wraps :
    (after (.rdw 0xFFFF#16) { State.reset with ram := [(0, 0x0A#8)], prgu := [(0x3FFF, 0x0B#8)] }).map State.results =
      some [.word 0x0A0B#16] := by decide

theorem test_wrw_straddles :
    (after (.wrw 0x3FFF#16 0x1234#16) State.reset).map (fun s => (s.proxyLog, s.iow)) =
      some ([.wr 0x2007#16 0x34#8], [(0x00, 0x12#8)]) := by decide

/-- With the trace present a word access emits two events, at the addresses issued (R210). -/
theorem test_wrw_trace :
    (after (.wrw 0x07FF#16 0xBEEF#16) { State.reset with cfg := { trace := true } }).map State.trace =
      some [⟨.write, 0x07FF#16, .store .ram, 0xEF#8⟩, ⟨.write, 0x0800#16, .store .ram, 0xBE#8⟩] := by decide

/-! ## Window rows and proxy rows -/

theorem test_win_ram : (after (.winRam .read 3#2 0x005#11) ram5).map State.results = some [.byte 0xAB#8] := by decide

theorem test_win_ppu :
    (after (.winPpu (.write 9#8) 0x3FF#10 7#3) State.reset).map State.proxyLog = some [.wr 0x2007#16 9#8] := by decide

theorem test_win_iow : (after (.winIow (.write 0x40#8) 0x1F#5) State.reset).map State.iow = some [(0x1F, 0x40#8)] := by
  decide

/-- The offsets of the first and the last cell of each expansion row, by true subtraction from 0x4020 (R156). -/
theorem test_win_exp_first :
    [after (.winExp1 (.write 1#8) 0#5) State.reset, after (.winExp2 (.write 1#8) 0#6) State.reset,
      after (.winExp3 (.write 1#8) 0#7) State.reset, after (.winExp4 (.write 1#8) 0#8) State.reset,
      after (.winExp5 (.write 1#8) 0#9) State.reset, after (.winExp6 (.write 1#8) 0#10) State.reset,
      after (.winExp7 (.write 1#8) 0#11) State.reset, after (.winExp8 (.write 1#8) 0#12) State.reset,
      after (.winExp9 (.write 1#8) 0#13) State.reset].map (fun o => o.map fun s => s.exp.map Prod.fst) =
    [some [0x0], some [0x20], some [0x60], some [0xE0], some [0x1E0], some [0x3E0], some [0x7E0], some [0xFE0],
      some [0x1FE0]] := by decide

theorem test_win_exp_last :
    (after (.winExp1 (.write 1#8) 0x1F#5) State.reset).map State.exp = some [(0x1F, 1#8)] ∧
    (after (.winExp9 (.write 1#8) 0x1FFF#13) State.reset).map State.exp = some [(0x3FDF, 1#8)] := by decide

theorem test_win_prgl : (after (.winPrgl .read 0x3FFC#14) aliasState).map State.results = some [.byte 0xE7#8] := by decide

theorem test_win_prgu :
    (after (.winPrgu .read 0x3FFC#14) aliasState).map State.results = some [.byte 0xE7#8] ∧
    (after (.winPrgu (.write 5#8) 0#14) State.reset).map State.prgu = some [(0, 5#8)] := by decide

theorem test_px_rd :
    (after (.pxRd 0x2007#16) State.reset).map State.proxyLog = some [.rd 0x2007#16] ∧
    (after (.pxRd 0x2008#16) State.reset).map State.fault = some (some (.proxyAddressOutOfRange 0x2008#16)) := by decide

theorem test_px_wr :
    (after (.pxWr 0x2006#16 0x3F#8) State.reset).map State.proxyLog = some [.wr 0x2006#16 0x3F#8] ∧
    (after (.pxWr 0x1FFF#16 0x3F#8) State.reset).map State.fault = some (some (.proxyAddressOutOfRange 0x1FFF#16)) := by
  decide

/-! ## INSTALL (`95_test_vectors.md` 2.6, P5) -/

theorem test_install_empty :
    (after (.install []) State.reset).map (fun s => (s.fault, s.usel, statusCode s)) =
      some (some .emptyProgram, .own, 0x82#8) := by decide

theorem test_install_small :
    (after (.install [0x03#8, 0x0A#8]) aliasState).map (fun s => (s.prgl, s.prgu, s.usel)) =
      some ([(0, 0x03#8), (1, 0x0A#8), (0x3FFC, 0xE7#8)], [], .aliased) := by decide

/-! ## HDRDEC (`95_test_vectors.md` 2.1, 2.2) -/

theorem test_hdrdec_h3_numbers :
    field (fun r => (r.mapper, r.submapper, r.prgRomSize, r.chrRomSize)) extHeader =
      some (321#12, some 2#4, 2#12, 257#12) := by decide

theorem test_hdrdec_h3_ram :
    field (fun r => (r.prgRamSize, r.prgNvramSize, r.chrRamSize, r.chrNvramSize)) extHeader =
      some (some 0#22, some 8192#22, some 8192#22, some 0#22) := by decide

theorem test_hdrdec_h12_size : field (fun r => (r.prgRomSize, r.mirroringMode)) fourScreenHeader =
    some (256#12, .fourScreen) := by decide

theorem test_hdrdec_failures :
    failure [] = some .truncatedHeader ∧ failure (List.replicate 15 0#8) = some .truncatedHeader ∧
    failure (List.replicate 16 0#8) = some .invalidFormat := by decide

/-! ## Header rows (`40_header_decode.md`, the examples of R114 to R132) -/

theorem test_hdr_b0_to_b3 :
    (after (.hdrB0 0x4E#8) State.reset).map State.results = some [.part (.idByte 0x4E#8)] ∧
    (after (.hdrB1 0x65#8) State.reset).map State.results = some [.parseFailure .invalidFormat] ∧
    (after (.hdrB2 0x53#8) State.reset).map State.results = some [.part (.idByte 0x53#8)] ∧
    (after (.hdrB3 0x1B#8) State.reset).map State.results = some [.parseFailure .invalidFormat] := by decide

theorem test_hdr_b4_b5 :
    (after (.hdrB4 2#8) State.reset).map State.results = some [.part (.prgRomLsb 2#8)] ∧
    (after (.hdrB5 1#8) State.reset).map State.results = some [.part (.chrRomLsb 1#8)] := by decide

theorem test_hdr_b6 :
    (after (.hdrB6 0#4 true false false true) State.reset).map State.results =
      some [.part (.flags6 0#4 true false false true false .fourScreen)] := by decide

theorem test_hdr_b7 :
    (after (.hdrB7Ext 4#4 1#2) State.reset).map State.results = some [.part (.flags7 .extended 4#4 1#2 true false)] ∧
    (after (.hdrB7Leg00 1#4 2#2) State.reset).map State.results = some [.part (.flags7 .legacy 1#4 2#2 false true)] ∧
    (after (.hdrB7Leg01 4#4 0#2) State.reset).map State.results = some [.part (.flags7 .legacy 4#4 0#2 false false)] ∧
    (after (.hdrB7Leg11 0#4 3#2) State.reset).map State.results = some [.part (.flags7 .legacy 0#4 3#2 true true)] := by
  decide

theorem test_hdr_b8_b9 :
    (after (.hdrB8 2#4 1#4) State.reset).map State.results = some [.part (.mapperHigh 2#4 1#4)] ∧
    (after (.hdrB9 1#4 0#4) State.reset).map State.results = some [.part (.romMsb 1#4 0#4)] := by decide

theorem test_hdr_b10_b11 :
    (after (.hdrB10 7#4 0#4) State.reset).map State.results = some [.part (.prgRam 7#4 0#4 8192#22 0#22)] ∧
    (after (.hdrB11 15#4 1#4) State.reset).map State.results = some [.part (.chrRam 15#4 1#4 2097152#22 128#22)] := by
  decide

theorem test_hdr_b12_to_b15 :
    (after (.hdrB12 1#2) State.reset).map State.results = some [.part (.timing 1#2)] ∧
    (after (.hdrB13Vs 5#4 2#4) State.reset).map State.results = some [.part (.vsTypes 5#4 2#4)] ∧
    (after (.hdrB13Extcon 4#4) State.reset).map State.results = some [.part (.extConsole 4#4)] ∧
    (after .hdrB13Ign State.reset).map State.results = some [.part .ignored] ∧
    (after (.hdrB14 2#2) State.reset).map State.results = some [.part (.miscRoms 2#2)] ∧
    (after (.hdrB15 1#6) State.reset).map State.results = some [.part (.expansion 1#6)] := by decide

/-- Bytes 8 and 15 of H6 of `95_test_vectors.md`, a legacy header with FF in bytes 8 to 15: no field, and no failure. -/
theorem test_hdr_legacy_high :
    (afterStep { State.reset with pending := [.txn (.header 8 0x00#8 0xFF#8)] }).map State.results =
      some [.part .ignored] ∧
    (afterStep { State.reset with pending := [.txn (.header 15 0x00#8 0xFF#8)] }).map State.results =
      some [.part .ignored] := by decide

/-! ## Faults, reset, LOADCART -/

/-- P5, step 3: after the fatal fault a read is refused. -/
theorem test_latched : exec (.rdb 0#16) faulted = .refused (.faultLatched .emptyProgram) := rfl

theorem test_reset_clears :
    (afterStep { faulted with pending := [.reset] }).map (fun s => (s.fault, s.session)) = some (none, 1) := by decide

/-- P2, shortened to a file that ends after two program bytes: LOADCART, then INSTALL of those two. -/
def shortFile : List Byte :=
  header [0x01#8, 0#8, 0#8, 0#8, 0#8, 0#8, 0#8, 0#8, 0#8, 0#8, 0#8, 0#8] ++ [0x03#8, 0x0A#8]

theorem test_loadcart :
    ((afterStep { State.reset with pending := [.loadCart shortFile] }).bind afterStep).map (fun s => (s.prgl, s.usel)) =
      some ([(0, 0x03#8), (1, 0x0A#8)], .aliased) := by decide

/-! ## Witnesses: every hypothesis of every statement is met somewhere -/

theorem witness_reserved_codes :
    0x6 ≤ ((0x600000000#36).extractLsb' 32 4).toNat ∧ 0x6 ≤ ((0xF00000000#36).extractLsb' 32 4).toNat := by decide

theorem witness_legacy_header_byte :
    8 ≤ (8 : Fin 16).val ∧ 8 ≤ (15 : Fin 16).val ∧ (0x00#8).extractLsb' 2 2 ≠ 0b10#2 ∧
    (0x04#8).extractLsb' 2 2 ≠ 0b10#2 ∧ (0x0C#8).extractLsb' 2 2 ≠ 0b10#2 := by decide

theorem witness_proxy_address :
    0x2000 ≤ (0x2000#16).toNat ∧ (0x2000#16).toNat < 0x4000 ∧ 0x2000 ≤ (0x3FFF#16).toNat ∧
    (0x3FFF#16).toNat < 0x4000 := by decide

/-- FAULT is clear at reset and in the other states of this file: the premise of every access, row and INSTALL statement. -/
theorem witness_live : State.reset.fault = none ∧ ram5.fault = none ∧ aliasState.fault = none := by decide

theorem witness_bit_form :
    (0x1FFF#16).extractLsb' 13 3 = 0b000#3 ∧ (0x3FFF#16).extractLsb' 13 3 = 0b001#3 ∧
    (0x401F#16).extractLsb' 5 11 = 0b01000000000#11 ∧
    ((0x4020#16).extractLsb' 14 2 = 0b01#2 ∧ (0x4020#16).extractLsb' 5 11 ≠ 0b01000000000#11) ∧
    ((0x7FFF#16).extractLsb' 14 2 = 0b01#2 ∧ (0x7FFF#16).extractLsb' 5 11 ≠ 0b01000000000#11) ∧
    (0xBFFF#16).extractLsb' 14 2 = 0b10#2 ∧ (0xC000#16).extractLsb' 14 2 = 0b11#2 := by decide

theorem witness_words_in_stores :
    State.reset.fault = none ∧ route State.reset.usel 0x0100#16 = .cell .ram 0x100 ∧
    route State.reset.usel (0x0100#16 + 1#16) = .cell .ram 0x101 ∧
    route State.reset.usel 0xBFFF#16 = .cell .prgl 0x3FFF ∧ route State.reset.usel (0xBFFF#16 + 1#16) = .cell .prgu 0 := by
  decide

theorem witness_proxy_words :
    State.reset.fault = none ∧ 0x2000 ≤ (0x2000#16).toNat ∧ (0x2000#16).toNat < 0x3FFF ∧
    0x2000 ≤ (0x3FFE#16).toNat ∧ (0x3FFE#16).toNat < 0x3FFF := by
  decide

theorem witness_ram_mirrors :
    State.reset.fault = none ∧ (0x07FF#16).toNat < 0x2000 ∧ (0x1FFF#16).toNat < 0x2000 ∧
    (0x07FF#16).extractLsb' 0 11 = (0x1FFF#16).extractLsb' 0 11 := by decide

theorem witness_bank_select :
    State.reset.fault = none ∧ State.reset.usel = .own ∧ aliasState.fault = none ∧ aliasState.usel = .aliased ∧
    0 < 0x4000 ∧ 0x3FFF < 0x4000 := by decide

theorem witness_program_windows : State.reset.fault = none ∧ 0x8000 ≤ (0x8000#16).toNat ∧ 0x8000 ≤ (0xFFFF#16).toNat := by decide

theorem witness_store_access : ram5.fault = none ∧ route ram5.usel 0x1805#16 = .cell .ram 0x005 := by decide

theorem witness_read_frame :
    (∃ t, exec (.rdb 0x1805#16) ram5 = .next t) ∧ (∃ t, exec (.rdw 0x1805#16) ram5 = .next t) ∧
    (∃ S o, route ram5.usel 0x1805#16 = .cell S o) ∧ (∃ S o, route ram5.usel (nextAddr 0x1805#16) = .cell S o) :=
  ⟨⟨_, rfl⟩, ⟨_, rfl⟩, ⟨_, _, rfl⟩, ⟨_, _, rfl⟩⟩

theorem witness_write_frame :
    (∃ t, exec (.wrb 0x1805#16 1#8) ram5 = .next t) ∧ (∃ t, exec (.wrw 0x1805#16 1#16) ram5 = .next t) ∧
    route ram5.usel 0x1805#16 ≠ .cell .ram 0x007 ∧ route ram5.usel (nextAddr 0x1805#16) ≠ .cell .ram 0x007 :=
  ⟨⟨_, rfl⟩, ⟨_, rfl⟩, by decide, by decide⟩

theorem witness_window_frame :
    (encode (.winRam .read 3#2 0x005#11) = .bus 0x1805#16 .read ∧ ∃ t, exec (.winRam .read 3#2 0x005#11) ram5 = .next t) ∧
    (encode (.winRam (.write 1#8) 3#2 0x005#11) = .bus 0x1805#16 (.write 1#8) ∧
      ∃ t, exec (.winRam (.write 1#8) 3#2 0x005#11) ram5 = .next t) :=
  ⟨⟨by decide, _, rfl⟩, by decide, _, rfl⟩

theorem witness_store_bounds :
    0x3FDF < cap .exp ∧ cap .exp ≤ 0x3FE0 ∧ 0 + (List.replicate 0x4000 0#8).length ≤ cap .prgl ∧
    cap .prgl < 0 + (List.replicate 0x4001 0#8).length ∧ cap .prgl < 1 + (List.replicate 0x4000 0#8).length ∧
    0x4000 + ([] : List Byte).length ≤ cap .prgl := by
  simp only [cap, List.length_replicate, List.length_nil]
  decide

theorem witness_install_lengths :
    State.reset.fault = none ∧ (1 ≤ [0#8].length ∧ [0#8].length ≤ 0x4000) ∧
    (1 ≤ (List.replicate 0x4000 0#8).length ∧ (List.replicate 0x4000 0#8).length ≤ 0x4000) ∧
    0x4000 < (List.replicate 0x4001 0#8).length ∧ 0x8000 < (List.replicate 0x8001 0#8).length := by
  simp only [List.length_replicate, List.length_cons, List.length_nil]
  decide

theorem witness_install_frame : [0x03#8] ≠ [] ∧ ∃ t, exec (.install [0x03#8]) State.reset = .next t :=
  ⟨by decide, _, rfl⟩

theorem witness_install_frame_large :
    List.replicate 0x4001 0#8 ≠ [] ∧ ∃ t, exec (.install (List.replicate 0x4001 0#8)) State.reset = .next t := by
  have large : 0x4000 < (List.replicate 0x4001 0#8).length := by rw [List.length_replicate]; decide
  refine ⟨fun h => ?_, (afterInstallLarge (List.replicate 0x4001 0#8) State.reset).answer .ok, ?_⟩
  · rw [h] at large
    exact absurd large (by decide)
  · simp only [exec, execInstall, whenLive_live (show State.reset.fault = none from rfl), installProgram_large large,
      andThen_done, finish_done]

theorem witness_header_lengths :
    (List.replicate 15 0#8).length < 16 ∧ 16 ≤ legacyHeader.length ∧ 16 ≤ (legacyHeader ++ [0xFF#8]).length ∧
    16 ≤ (List.replicate 16 0#8).length := by decide

/-- A legacy record, and extended ones of each console type that has a sub-type and of one that has none. -/
theorem witness_records :
    field (fun r => (r.version, r.consoleType)) legacyHeader = some (.legacy, 0#2) ∧
    field (fun r => (r.version, r.consoleType)) extHeader = some (.extended, 0#2) ∧
    field (fun r => (r.version, r.consoleType)) vsHeader = some (.extended, 1#2) ∧
    field (fun r => (r.version, r.consoleType)) extConsoleHeader = some (.extended, 3#2) := by decide

/-- Four-screen with either mirroring bit, vertical, horizontal. -/
theorem witness_mirroring :
    field (fun r => (r.fourScreen, r.mirrorVertical)) fourScreenHeader = some (true, false) ∧
    field (fun r => (r.fourScreen, r.mirrorVertical)) legacyHeader = some (false, true) ∧
    field (fun r => (r.fourScreen, r.mirrorVertical)) legacyHeaderFF = some (false, false) := by decide

/-- Two legacy headers that differ in bytes 8 to 15 only. -/
theorem witness_legacy_others :
    field CartridgeHeader.version legacyHeaderFF = some .legacy ∧
    16 ≤ (legacyHeaderFF.take 8 ++ List.replicate 8 0#8).length ∧
    (legacyHeaderFF.take 8 ++ List.replicate 8 0#8).take 8 = legacyHeaderFF.take 8 := by decide

/-- Both outcomes of HDRDEC and of the load sequence. -/
theorem witness_header_outcomes :
    (∃ r, headerDecode State.reset.cfg.magic (shortFile.take 16) = .ok r) ∧
    headerDecode State.reset.cfg.magic ((List.replicate 20 0#8).take 16) = .error .invalidFormat :=
  ⟨⟨_, rfl⟩, rfl⟩

/-- An identification byte that is MAGIC's, and one that is not. -/
theorem witness_id_bytes : 0x4E#8 = State.reset.cfg.magic.b0 ∧ 0x4F#8 ≠ State.reset.cfg.magic.b0 := by decide

/-- Records of either version: the premise of the agreement with the header bytes. -/
theorem witness_agrees :
    field CartridgeHeader.version legacyHeaderFF = some .legacy ∧
    field CartridgeHeader.version extHeader = some .extended := by decide

theorem witness_latched :
    faulted.fault = some .emptyProgram ∧ (∃ a acc, encode (.winRam .read 0#2 0#11) = .bus a acc) ∧
    ∃ p acc, encode (.pxRd 0x2000#16) = .proxy p acc :=
  ⟨rfl, ⟨_, _, rfl⟩, _, _, rfl⟩

/-- Both causes an instruction can raise. -/
theorem witness_fatal_faults :
    (∃ t, exec (.install []) State.reset = .next t ∧ t.fault ≠ none) ∧
    ∃ t, exec (.pxRd 0x2008#16) State.reset = .next t ∧ t.fault ≠ none :=
  ⟨⟨_, rfl, by decide⟩, _, rfl, by decide⟩

/-- With FAULT set a step that answers: HDRDEC, which keeps it, and reset. -/
theorem witness_only_reset :
    (∃ t, step { faulted with pending := [.txn (encode (.hdrdec []))] } = .next t) ∧
    ∃ t, step { faulted with pending := [.reset] } = .next t :=
  ⟨⟨_, rfl⟩, _, rfl⟩

theorem witness_step :
    decode (.cmd 0x1000500AB#36 []) = .ok (.wrb 0x0005#16 0xAB#8) ∧ State.reset.pending = [] ∧
    State.reset.wf = true ∧ ∃ t, step { State.reset with pending := [.txn (.cmd 0x1000500AB#36 [])] } = .next t :=
  ⟨by decide, rfl, rfl, _, rfl⟩

/-- A cell changed by each kind of write: WRB, WRW, a window row, INSTALL. -/
theorem witness_cells_change :
    (∃ t, exec (.wrb 0x0805#16 0x11#8) ram5 = .next t ∧ t.cell .ram 0x005 ≠ ram5.cell .ram 0x005) ∧
    (∃ t, exec (.wrw 0x0004#16 0#16) ram5 = .next t ∧ t.cell .ram 0x005 ≠ ram5.cell .ram 0x005) ∧
    (∃ t, exec (.winRam (.write 0x11#8) 0#2 0x005#11) ram5 = .next t ∧ t.cell .ram 0x005 ≠ ram5.cell .ram 0x005) ∧
    ∃ t, exec (.install [1#8]) { State.reset with prgl := [(0, 0#8)] } = .next t ∧
      t.cell .prgl 0 ≠ State.cell { State.reset with prgl := [(0, 0#8)] } .prgl 0 :=
  ⟨⟨_, rfl, by decide⟩, ⟨_, rfl, by decide⟩, ⟨_, rfl, by decide⟩, _, rfl, by decide⟩

end Sys2Proof.Tests
end

section
/-! The statements of `10_state.md`: what an instruction and a step keep of the state, read off `exec_next` and
`step_next`. -/

namespace Sys2Proof.Machine

/-! ## FAULT -/

/-- With FAULT set the only instructions that answer are those that give a result and change nothing else. -/
theorem exec_next_of_latched {i : Instr} {s t : State} {f : Fault} (latched : s.fault = some f)
    (h : exec i s = .next t) : ∃ r, t = s.answer r := by
  have dead : s.fault ≠ none := by simp [latched]
  cases exec_next h with
  | pure _ r state => exact ⟨r, state⟩
  | access _ _ _ _ live => exact absurd live dead
  | rdw _ _ live => exact absurd live dead
  | wrw _ _ live => exact absurd live dead
  | installEmpty live => exact absurd live dead
  | installSmall _ live => exact absurd live dead
  | installLarge _ live => exact absurd live dead
  | pxRd _ _ live => exact absurd live dead
  | pxWr _ _ live => exact absurd live dead
  | pxFault _ _ _ live => exact absurd live dead

/-- Settles O51: the only instructions that answer with FAULT set keep it, and so does every request but a reset. -/
theorem onlyResetClearsFault : Obligations.OnlyResetClearsFault := by
  intro s t f latched h
  cases step_next h with
  | idle _ state => exact .inl (state ▸ latched)
  | instr x i rest _ _ run =>
    obtain ⟨r, rfl⟩ := exec_next_of_latched (s := { s with pending := rest }) latched run
    exact .inl latched
  | reset rest queue => exact .inr (by simp [queue])
  | badCart _ _ _ _ _ state => exact .inl (by simpa [state] using latched)
  | cart _ _ _ _ _ state => exact .inl (by simpa [state] using latched)

/-- The rows of `PXA16` are the two proxy primitives (`30_encoding.md` R87). -/
theorem pxRd_or_pxWr_of_encode {i : Instr} {p : Addr} {acc : Access} (h : encode i = .proxy p acc) :
    i = .pxRd p ∨ ∃ v, i = .pxWr p v := by
  cases i <;> simp only [encode, extByte, Txn.proxy.injEq, reduceCtorEq] at h
  case pxRd q => exact .inl (by rw [h.1])
  case pxWr q v => exact .inr ⟨v, by rw [h.1]⟩

/-- Settles O49: a row of either format runs only while FAULT is clear. -/
theorem latchedFaultRefusesTheRows : Obligations.LatchedFaultRefusesTheRows := by
  rintro s f i latched (⟨a, acc, h⟩ | ⟨p, acc, h⟩)
  · rw [exec_of_bus h]
    exact whenLive_latched latched _
  · obtain rfl | ⟨v, rfl⟩ := pxRd_or_pxWr_of_encode h
    · exact whenLive_latched latched _
    · exact whenLive_latched latched _

/-! ## The canonical form of the stores -/

/-- Every instruction keeps the canonical form. -/
theorem exec_wf {i : Instr} {s t : State} (hs : s.wf = true) (h : exec i s = .next t) : t.wf = true := by
  cases exec_next h with
  | access _ a acc _ _ state => exact state ▸ accessed_wf hs (route_inRange _ _) a acc
  | rdw _ _ _ state => exact state ▸ answer_wf (afterRead_wf (afterRead_wf hs)) _
  | wrw _ _ _ state =>
    exact state ▸ answer_wf (afterWrite_wf (afterWrite_wf hs (route_inRange _ _)) (route_inRange _ _)) _
  | installEmpty _ state => exact state ▸ takeFault_wf hs _
  | installSmall _ _ _ small state => exact state ▸ answer_wf (afterInstallSmall_wf hs small) _
  | installLarge _ _ _ state => exact state ▸ answer_wf (afterInstallLarge_wf hs) _
  | pxRd _ _ _ _ state => exact state ▸ answer_wf (wf_of_store_eq hs fun S => by cases S <;> rfl) _
  | pxWr _ _ _ _ state => exact state ▸ answer_wf (wf_of_store_eq hs (with_proxyLog_store s _)) _
  | pxFault _ _ _ _ _ state => exact state ▸ takeFault_wf hs _
  | pure _ r state => exact state ▸ answer_wf hs r

/-- Settles O55: taking a request leaves the stores alone, every instruction keeps the canonical form, and reset empties
the stores. -/
theorem stepKeepsStoresCanonical : Obligations.StepKeepsStoresCanonical := by
  intro s t hs h
  have taken (rest : List Request) : State.wf { s with pending := rest } = true :=
    wf_of_store_eq hs (with_pending_store s rest)
  cases step_next h with
  | idle _ state => exact state ▸ hs
  | instr _ _ rest _ _ run => exact exec_wf (taken rest) run
  | reset _ _ state => exact state ▸ powerOn_wf _
  | badCart _ rest _ _ _ state => exact state ▸ answer_wf (taken rest) _
  | cart _ rest r _ _ state =>
    exact state ▸ wf_of_store_eq (answer_wf (taken rest) (.header r)) (issueFirst_store _ _)

/-- Settles O53: no cell of the reset state has been written. -/
theorem resetStateIsCanonical : Obligations.ResetStateIsCanonical := by
  refine ⟨reset_wf, fun S o => ?_, rfl, rfl⟩
  cases S <;> rfl

/-! ## USEL and the parameters -/

@[simp] theorem afterInstallSmall_cfg (bytes : List Byte) (s : State) : (afterInstallSmall bytes s).cfg = s.cfg := by
  simp [afterInstallSmall]

@[simp] theorem afterInstallLarge_cfg (bytes : List Byte) (s : State) : (afterInstallLarge bytes s).cfg = s.cfg := by
  simp [afterInstallLarge]

/-- An instruction keeps the parameters, and USEL too unless it is INSTALL. -/
theorem exec_keeps_cfg_usel {i : Instr} {s t : State} (h : exec i s = .next t) :
    t.cfg = s.cfg ∧ ((∃ bytes, i = .install bytes) ∨ t.usel = s.usel) := by
  cases exec_next h with
  | access _ _ _ _ _ state => simp [state]
  | rdw _ _ _ state => simp [state]
  | wrw _ _ _ state => simp [state]
  | installEmpty _ state => simp [state]
  | installSmall bytes _ _ _ state => exact ⟨by simp [state], .inl ⟨bytes, rfl⟩⟩
  | installLarge bytes _ _ state => exact ⟨by simp [state], .inl ⟨bytes, rfl⟩⟩
  | pxRd _ _ _ _ state => simp [state]
  | pxWr _ _ _ _ state => simp [state]
  | pxFault _ _ _ _ _ state => simp [state]
  | pure _ _ state => simp [state]

/-- No bus address is an INSTALL: every row of `A16` is a window row. -/
theorem decodeBus_ne_install (a : Addr) (acc : Access) (bytes : List Byte) : decodeBus a acc ≠ .install bytes := by
  simp only [decodeBus, ne_eq, apply_ite (· = Instr.install bytes), reduceCtorEq, ite_self, not_false_eq_true]

/-- No header byte is an INSTALL. -/
theorem decodeHeader_ne_install (index : Fin 16) (h7 b : Byte) (bytes : List Byte) :
    decodeHeader index h7 b ≠ .install bytes := by
  have seven : decodeHeader7 b ≠ .install bytes := by
    simp only [decodeHeader7, ne_eq, apply_ite (· = Instr.install bytes), reduceCtorEq, ite_self, not_false_eq_true]
  have thirteen : decodeHeader13 h7 b ≠ .install bytes := by
    simp only [decodeHeader13, ne_eq, apply_ite (· = Instr.install bytes), reduceCtorEq, ite_self, not_false_eq_true]
  have ext : decodeHeaderExt index h7 b ≠ .install bytes := by
    unfold decodeHeaderExt
    split <;> simp [thirteen]
  unfold decodeHeader
  split <;> simp [seven, apply_ite (· = Instr.install bytes), ext]

/-- Only the command port carries INSTALL, with its byte sequence beside the word (R88, R89). -/
theorem eq_cmd_of_decode_install {x : Txn} {bytes : List Byte} (h : decode x = .ok (.install bytes)) :
    ∃ w, x = .cmd w bytes := by
  cases x with
  | cmd w operand =>
    simp only [decode, decodeCmd] at h
    repeat' split at h
    all_goals cases h
    exact ⟨w, rfl⟩
  | bus a acc => exact absurd (Except.ok.inj h) (decodeBus_ne_install a acc bytes)
  | proxy p acc => cases acc <;> simp [decode, decodeProxy] at h
  | header index h7 b => exact absurd (Except.ok.inj h) (decodeHeader_ne_install index h7 b bytes)

/-- Settles O56: an instruction that is no INSTALL keeps USEL, and only a command word is an INSTALL. -/
theorem onlyInstallAndResetChangeTheBankSelect : Obligations.OnlyInstallAndResetChangeTheBankSelect := by
  refine ⟨fun s t i => exec_keeps_cfg_usel, fun s t h => ?_⟩
  cases step_next h with
  | idle _ state => simp [state]
  | instr x i rest queue dec run =>
    obtain ⟨hcfg, ⟨bytes, rfl⟩ | husel⟩ := exec_keeps_cfg_usel run
    · obtain ⟨w, rfl⟩ := eq_cmd_of_decode_install dec
      exact ⟨hcfg, .inr (.inr ⟨w, bytes, by simp [queue], dec⟩)⟩
    · exact ⟨hcfg, .inl husel⟩
  | reset _ queue state => exact ⟨by simp [state], .inr (.inl (by simp [queue]))⟩
  | badCart _ _ _ _ _ state => simp [state]
  | cart _ _ _ _ _ state => simp [state]

/-! ## Cells -/

/-- A byte access that changes a cell is a write at that cell. -/
theorem write_at_of_accessed_cell_ne {s : State} {T : Target} {a : Addr} {acc : Access} {S : Store} {o : Nat}
    (h : (s.accessed T a acc).cell S o ≠ s.cell S o) : (∃ v, acc = .write v) ∧ T = .cell S o := by
  rw [accessed_cell] at h
  cases acc with
  | read => exact absurd rfl h
  | write v => exact ⟨⟨v, rfl⟩, by simpa using fun hT => h (if_neg hT)⟩

/-- A write at a place leaves every other cell alone (R201, R207). -/
theorem afterWrite_cell_of_ne {s : State} {T : Target} {a : Addr} {v : Byte} {S : Store} {o : Nat}
    (h : T ≠ .cell S o) : (afterWrite T a v s).cell S o = s.cell S o := by
  rw [afterWrite_cell, if_neg h]

/-- INSTALL of 1 to 16 KB writes the lower bank only (R183). -/
theorem afterInstallSmall_cell_of_ne {bytes : List Byte} {s : State} {S : Store} (o : Nat) (h : S ≠ .prgl) :
    (afterInstallSmall bytes s).cell S o = s.cell S o := by
  simp [afterInstallSmall_cell, h]

/-- INSTALL of more than 16 KB writes the two banks only (R181). -/
theorem afterInstallLarge_cell_of_ne {bytes : List Byte} {s : State} {S : Store} (o : Nat) (h : S ≠ .prgl)
    (h' : S ≠ .prgu) : (afterInstallLarge bytes s).cell S o = s.cell S o := by
  simp [afterInstallLarge_cell, h, h']

/-- Settles O57: reads, proxy primitives and header results change no cell, a write the routed cells, INSTALL banks. -/
theorem cellsChangeOnlyByWritesRoutedToThem : Obligations.CellsChangeOnlyByWritesRoutedToThem := by
  intro s t i S o h changed
  cases exec_next h with
  | access _ a acc shape _ state =>
    subst state
    obtain ⟨⟨v, rfl⟩, routed⟩ := write_at_of_accessed_cell_ne changed
    obtain bus | ⟨_, hread⟩ | ⟨u, rfl, _⟩ := shape
    · exact .inr (.inr (.inl ⟨a, v, bus, routed⟩))
    · cases hread
    · exact .inl ⟨a, u, rfl, routed⟩
  | rdw _ _ _ state => exact absurd (by simp [state]) changed
  | wrw a w _ state =>
    refine .inr (.inl ⟨a, w, rfl, ?_⟩)
    by_contra! away
    exact changed (by rw [state, answer_cell, afterWrite_cell_of_ne away.2, afterWrite_cell_of_ne away.1])
  | installEmpty _ state => exact absurd (by simp [state]) changed
  | installSmall bytes _ _ _ state =>
    refine .inr (.inr (.inr ⟨bytes, rfl, .inl ?_⟩))
    by_contra other
    exact changed (by rw [state, answer_cell, afterInstallSmall_cell_of_ne o other])
  | installLarge bytes _ _ state =>
    refine .inr (.inr (.inr ⟨bytes, rfl, ?_⟩))
    by_contra! other
    exact changed (by rw [state, answer_cell, afterInstallLarge_cell_of_ne o other.1 other.2])
  | pxRd _ _ _ _ state => exact absurd (by rw [state, answer_cell]; cases S <;> rfl) changed
  | pxWr _ _ _ _ state => exact absurd (by simp [state]) changed
  | pxFault _ _ _ _ _ state => exact absurd (by simp [state]) changed
  | pure _ _ state => exact absurd (by simp [state]) changed

/-! ## Earlier results -/

/-- The state in which the results `earlier` were given before all others. -/
def State.withEarlier (earlier : List Result) (s : State) : State :=
  { s with results := earlier ++ s.results }

@[simp] theorem withEarlier_usel (earlier : List Result) (s : State) : (s.withEarlier earlier).usel = s.usel := rfl

@[simp] theorem withEarlier_cfg (earlier : List Result) (s : State) : (s.withEarlier earlier).cfg = s.cfg := rfl

@[simp] theorem withEarlier_store (earlier : List Result) (s : State) (S : Store) :
    (s.withEarlier earlier).store S = s.store S := with_results_store s _ S

@[simp] theorem withEarlier_cell (earlier : List Result) (s : State) (S : Store) (o : Nat) :
    (s.withEarlier earlier).cell S o = s.cell S o := with_results_cell s _ S o

@[simp] theorem answer_withEarlier (earlier : List Result) (s : State) (r : Result) :
    (s.withEarlier earlier).answer r = (s.answer r).withEarlier earlier := by
  simp [State.withEarlier, State.answer]

@[simp] theorem setStore_withEarlier (earlier : List Result) (s : State) (S : Store) (m : Memory) :
    (s.withEarlier earlier).setStore S m = (s.setStore S m).withEarlier earlier := by
  cases S <;> rfl

@[simp] theorem emit_withEarlier (earlier : List Result) (k : AccessKind) (a : Addr) (r : Region) (v : Byte)
    (s : State) : emit k a r v (s.withEarlier earlier) = (emit k a r v s).withEarlier earlier := by
  by_cases present : s.cfg.trace = true <;> simp [emit, State.withEarlier, present]

@[simp] theorem valueAt_withEarlier (earlier : List Result) (T : Target) (s : State) :
    valueAt T (s.withEarlier earlier) = valueAt T s := by
  cases T with
  | cell S o => exact withEarlier_cell earlier s S o
  | ppu p => rfl

@[simp] theorem afterRead_withEarlier (earlier : List Result) (T : Target) (a : Addr) (s : State) :
    afterRead T a (s.withEarlier earlier) = (afterRead T a s).withEarlier earlier := by
  cases T with
  | cell S o => simp only [afterRead, withEarlier_cell, emit_withEarlier]
  | ppu p =>
    exact emit_withEarlier earlier .read a .ppu (Config.proxyAnswer s.draws s.proxyLog p)
      { s with proxyLog := s.proxyLog ++ [.rd p], draws := s.draws + 1 }

@[simp] theorem afterWrite_withEarlier (earlier : List Result) (T : Target) (a : Addr) (v : Byte) (s : State) :
    afterWrite T a v (s.withEarlier earlier) = (afterWrite T a v s).withEarlier earlier := by
  cases T with
  | cell S o => simp only [afterWrite, State.setCell, withEarlier_store, setStore_withEarlier, emit_withEarlier]
  | ppu p => exact emit_withEarlier earlier .write a .ppu v { s with proxyLog := s.proxyLog ++ [.wr p v] }

@[simp] theorem afterInstallSmall_withEarlier (earlier : List Result) (bytes : List Byte) (s : State) :
    afterInstallSmall bytes (s.withEarlier earlier) = (afterInstallSmall bytes s).withEarlier earlier := by
  simp only [afterInstallSmall, withEarlier_store, setStore_withEarlier]
  rfl

@[simp] theorem afterInstallLarge_withEarlier (earlier : List Result) (bytes : List Byte) (s : State) :
    afterInstallLarge bytes (s.withEarlier earlier) = (afterInstallLarge bytes s).withEarlier earlier := by
  simp only [afterInstallLarge, withEarlier_store, setStore_withEarlier]
  rfl

/-- Earlier results change neither the outcome of `k` nor anything else in its next state. -/
def IgnoresEarlier (k : State → Host.Outcome State Fault Refusal) : Prop :=
  ∀ (s : State) (earlier : List Result), k (s.withEarlier earlier) = mapNext (State.withEarlier earlier) (k s)

theorem ignoresEarlier_answer (r : Result) : IgnoresEarlier fun s => .next (s.answer r) :=
  fun s earlier => congrArg _ (answer_withEarlier earlier s r)

/-- FAULT is no result: the latch is checked without reading one. -/
theorem ignoresEarlier_whenLive {k : State → Host.Outcome State Fault Refusal} (h : IgnoresEarlier k) :
    IgnoresEarlier fun s => whenLive s (k s) := by
  intro s earlier
  cases latch : s.fault with
  | none => simpa only [whenLive_live (s := s.withEarlier earlier) latch, whenLive_live latch] using h s earlier
  | some f =>
    simp only [whenLive_latched (s := s.withEarlier earlier) latch, whenLive_latched latch, mapNext]

theorem ignoresEarlier_access {i : Instr} {a : Addr} {acc : Access} (h : IsAccess i a acc) :
    IgnoresEarlier (exec i) := by
  rw [funext (exec_access h)]
  refine ignoresEarlier_whenLive fun s earlier => ?_
  cases acc with
  | read => simp [accessAt, readAt_done (route_inRange _ _), mapNext]
  | write v => simp [accessAt, writeAt_done (route_inRange _ _), mapNext]

theorem ignoresEarlier_install (bytes : List Byte) : IgnoresEarlier (exec (.install bytes)) := by
  refine ignoresEarlier_whenLive fun s earlier => ?_
  rcases Nat.eq_zero_or_pos bytes.length with h0 | h0
  · obtain rfl := List.length_eq_zero_iff.mp h0
    rfl
  rcases Nat.lt_or_ge 0x4000 bytes.length with h1 | h1
  · simp [installProgram_large h1, mapNext]
  · simp [installProgram_small (Nat.ne_of_gt h0) h1, mapNext]

theorem ignoresEarlier_pxRd (p : Addr) : IgnoresEarlier (exec (.pxRd p)) := by
  refine ignoresEarlier_whenLive fun s earlier => ?_
  by_cases range : 0x2000 ≤ p.toNat ∧ p.toNat < 0x2008
  · simp only [pxRead_done range, andThen_done, finish_done]
    exact ignoresEarlier_answer _ { s with proxyLog := s.proxyLog ++ [.rd p], draws := s.draws + 1 } earlier
  · simp only [pxRead_raised range]
    rfl

theorem ignoresEarlier_pxWr (p : Addr) (v : Byte) : IgnoresEarlier (exec (.pxWr p v)) := by
  refine ignoresEarlier_whenLive fun s earlier => ?_
  by_cases range : 0x2000 ≤ p.toNat ∧ p.toNat < 0x2008
  · simp only [pxWrite_done range, andThen_done, finish_done]
    exact ignoresEarlier_answer _ { s with proxyLog := s.proxyLog ++ [.wr p v] } earlier
  · simp only [pxWrite_raised range]
    rfl

theorem ignoresEarlier_hdrdec (input : List Byte) : IgnoresEarlier (exec (.hdrdec input)) := by
  intro s earlier
  simp only [exec, execHdrdec, withEarlier_cfg]
  cases headerDecode s.cfg.magic input with
  | ok r => exact ignoresEarlier_answer _ s earlier
  | error e => exact ignoresEarlier_answer _ s earlier

theorem ignoresEarlier_idByte (b expected : Byte) : IgnoresEarlier (giveIdByte b expected) := by
  intro s earlier
  by_cases agree : b = expected
  · simp only [giveIdByte, if_pos agree]
    exact ignoresEarlier_answer _ s earlier
  · simp only [giveIdByte, if_neg agree]
    exact ignoresEarlier_answer _ s earlier

/-- Every instruction answers the same, whatever results were given before. -/
theorem exec_ignoresEarlier (i : Instr) : IgnoresEarlier (exec i) := by
  cases i
  case rdb a => exact ignoresEarlier_access (.inr (.inl ⟨rfl, rfl⟩))
  case wrb a v => exact ignoresEarlier_access (.inr (.inr ⟨v, rfl, rfl⟩))
  case rdw a => exact ignoresEarlier_whenLive fun s earlier => by simp [readWord_done, mapNext]
  case wrw a w => exact ignoresEarlier_whenLive fun s earlier => by simp [writeWord_done, mapNext]
  case install bytes => exact ignoresEarlier_install bytes
  case hdrdec input => exact ignoresEarlier_hdrdec input
  case pxRd p => exact ignoresEarlier_pxRd p
  case pxWr p v => exact ignoresEarlier_pxWr p v
  case hdrB0 b => exact fun s => ignoresEarlier_idByte b s.cfg.magic.b0 s
  case hdrB1 b => exact fun s => ignoresEarlier_idByte b s.cfg.magic.b1 s
  case hdrB2 b => exact fun s => ignoresEarlier_idByte b s.cfg.magic.b2 s
  case hdrB3 b => exact fun s => ignoresEarlier_idByte b s.cfg.magic.b3 s
  case winRam | winPpu | winIow | winExp1 | winExp2 | winExp3 | winExp4 | winExp5 | winExp6 | winExp7 | winExp8 |
      winExp9 | winPrgl | winPrgu => exact ignoresEarlier_access (.inl rfl)
  all_goals exact ignoresEarlier_answer _

/-- Settles O59: results are written and never read. -/
theorem resultsAreNeverReadBack : Obligations.ResultsAreNeverReadBack :=
  fun i s earlier => exec_ignoresEarlier i s earlier

end Sys2Proof.Machine
end

section
/-! The statements of `20_memory.md`: what a byte access and a word access answer, where the two bytes of a word lie,
and what each access leaves unchanged. -/

namespace Sys2Proof.Machine

/-! ## What an access answers -/

theorem isAccess_rdb (a : Addr) : IsAccess (.rdb a) a .read :=
  .inr (.inl ⟨rfl, rfl⟩)

theorem isAccess_wrb (a : Addr) (v : Byte) : IsAccess (.wrb a v) a (.write v) :=
  .inr (.inr ⟨v, rfl, rfl⟩)

/-- While FAULT is clear a byte access completes. -/
theorem exec_access_live {i : Instr} {a : Addr} {acc : Access} {s : State} (shape : IsAccess i a acc)
    (live : s.fault = none) : exec i s = .next (s.accessed (route s.usel a) a acc) := by
  rw [exec_access shape, whenLive_live live, accessAt_accessed (route_inRange _ _)]

/-- While FAULT is clear RDW completes. -/
theorem exec_rdw_live {a : Addr} {s : State} (live : s.fault = none) :
    exec (.rdw a) s = .next
      ((afterRead (route s.usel (nextAddr a)) (nextAddr a) (afterRead (route s.usel a) a s)).answer
        (.word (joinWord (valueAt (route s.usel (nextAddr a)) (afterRead (route s.usel a) a s))
          (valueAt (route s.usel a) s)))) := by
  simp only [exec, execRdw, whenLive_live live, readWord_done, andThen_done, finish_done]

/-- While FAULT is clear WRW completes. -/
theorem exec_wrw_live {a : Addr} {w : Word} {s : State} (live : s.fault = none) :
    exec (.wrw a w) s = .next
      ((afterWrite (route s.usel (nextAddr a)) (nextAddr a) (hiByte w)
        (afterWrite (route s.usel a) a (loByte w) s)).answer .ok) := by
  simp only [exec, execWrw, whenLive_live live, writeWord_done, andThen_done, finish_done]

/-- A byte access that answers a next state answers the accessed state. -/
theorem eq_accessed_of_next {i : Instr} {a : Addr} {acc : Access} {s t : State} (shape : IsAccess i a acc)
    (h : exec i s = .next t) : t = s.accessed (route s.usel a) a acc := by
  have live : s.fault = none := live_of_next ((exec_access shape s).symm.trans h)
  rw [exec_access_live shape live] at h
  exact (Host.Outcome.next.inj h).symm

/-! ## Single bytes in a store -/

@[simp] theorem accessed_store_proxyLog (s : State) (S : Store) (o : Nat) (a : Addr) (acc : Access) :
    (s.accessed (.cell S o) a acc).proxyLog = s.proxyLog := by
  rw [accessed_proxyLog]

@[simp] theorem accessed_store_draws (s : State) (S : Store) (o : Nat) (a : Addr) (acc : Access) :
    (s.accessed (.cell S o) a acc).draws = s.draws := by
  rw [accessed_draws]

@[simp] theorem accessed_write_draws (s : State) (T : Target) (a : Addr) (v : Byte) :
    (s.accessed T a (.write v)).draws = s.draws := by
  cases T <;> rw [accessed_draws]

/-- A byte access keeps every cell but the one at its place, and that one too when it reads. -/
theorem accessed_cell_of_ne {s : State} {T : Target} {a : Addr} {acc : Access} {S : Store} {o : Nat}
    (h : acc = .read ∨ T ≠ .cell S o) : (s.accessed T a acc).cell S o = s.cell S o := by
  by_contra changed
  obtain ⟨⟨v, rfl⟩, rfl⟩ := write_at_of_accessed_cell_ne changed
  simp at h

/-- RDB at a store address gives the byte of the cell the address is routed to. -/
theorem exec_rdb_cell {s : State} {a : Addr} {S : Store} {o : Nat} {b : Byte} (live : s.fault = none)
    (routed : route s.usel a = .cell S o) (held : s.cell S o = b) :
    ∃ t, exec (.rdb a) s = .next t ∧ t.results = s.results ++ [.byte b] := by
  subst held
  refine ⟨_, exec_access_live (isAccess_rdb a) live, ?_⟩
  rw [routed, accessed_results]

/-- WRB at a store address leaves its byte in the cell the address is routed to, and every other cell alone. -/
theorem exec_wrb_cell {s : State} {a : Addr} {S : Store} {o : Nat} (v : Byte) (live : s.fault = none)
    (routed : route s.usel a = .cell S o) :
    ∃ t, exec (.wrb a v) s = .next t ∧ t.fault = none ∧ t.usel = s.usel ∧ t.proxyLog = s.proxyLog ∧
      t.cell S o = v ∧ ∀ S' o', Target.cell S o ≠ .cell S' o' → t.cell S' o' = s.cell S' o' := by
  refine ⟨_, exec_access_live (isAccess_wrb a v) live, ?_⟩
  rw [routed]
  refine ⟨by rw [accessed_fault, live], accessed_usel .., accessed_store_proxyLog .., ?_, ?_⟩
  · rw [accessed_cell]
    exact if_pos rfl
  · exact fun S' o' apart => accessed_cell_of_ne (.inr apart)

/-- Settles O21: a read leaves its cell as it was, and a second write finds its byte there already. -/
theorem storeAccessesAreIdempotent : Obligations.StoreAccessesAreIdempotent := by
  intro s a v S o live routed
  constructor
  · obtain ⟨t, run, ht⟩ := exec_rdb_cell live routed rfl
    have state := eq_accessed_of_next (isAccess_rdb a) run
    have live' : t.fault = none := by rw [state, accessed_fault, live]
    have routed' : route t.usel a = .cell S o := by rw [state, accessed_usel, routed]
    have held : t.cell S o = s.cell S o := state ▸ accessed_cell_of_ne (.inl rfl)
    obtain ⟨u, run', hu⟩ := exec_rdb_cell live' routed' held
    exact ⟨t, u, s.cell S o, run, ht, run', hu⟩
  · obtain ⟨t, run, live', husel, -, held, others⟩ := exec_wrb_cell v live routed
    obtain ⟨u, run', -, husel', hlog, held', others'⟩ := exec_wrb_cell v live' (husel ▸ routed)
    refine ⟨t, u, run, run', hlog, husel', fun S' o' => ?_⟩
    by_cases same : Target.cell S o = .cell S' o'
    · obtain ⟨rfl, rfl⟩ := Target.cell.inj same
      rw [held, held']
    · exact others' S' o' same

/-! ## Words in stores -/

@[simp] theorem afterRead_store_proxyLog (S : Store) (o : Nat) (a : Addr) (s : State) :
    (afterRead (.cell S o) a s).proxyLog = s.proxyLog := by
  simp [afterRead]

@[simp] theorem afterRead_store_draws (S : Store) (o : Nat) (a : Addr) (s : State) :
    (afterRead (.cell S o) a s).draws = s.draws := by
  simp [afterRead]

@[simp] theorem afterWrite_store_proxyLog (S : Store) (o : Nat) (a : Addr) (v : Byte) (s : State) :
    (afterWrite (.cell S o) a v s).proxyLog = s.proxyLog := by
  simp [afterWrite]

/-- The offset in its store, or the proxy address, that a place names. -/
def Target.index : Target → Nat
  | .cell _ o => o
  | .ppu p => p.toNat

/-- The router keeps the low bit of an address: every window begins at an even address, and a mirrored one repeats
after an even number of bytes. -/
theorem route_index_mod_two (usel : BankSelect) (a : Addr) : (route usel a).index % 2 = a.toNat % 2 := by
  unfold route
  repeat' split
  all_goals simp only [Target.index, BitVec.toNat_ofNat]; omega

/-- The two bytes of a word never lie in one place, in whatever windows they are. -/
theorem route_nextAddr_ne (usel : BankSelect) (a : Addr) : route usel (nextAddr a) ≠ route usel a := by
  intro same
  have parity : (nextAddr a).toNat % 2 = a.toNat % 2 := by
    rw [← route_index_mod_two usel, same, route_index_mod_two]
  simp only [nextAddr, BitVec.toNat_add, BitVec.toNat_ofNat] at parity
  omega

/-- WRW with both bytes in stores leaves the low byte in the cell of its address, the high byte in the next one's. -/
theorem exec_wrw_cells {s : State} {a : Addr} {S S' : Store} {o o' : Nat} (w : Word) (live : s.fault = none)
    (low : route s.usel a = .cell S o) (high : route s.usel (nextAddr a) = .cell S' o') :
    ∃ t, exec (.wrw a w) s = .next t ∧ t.fault = none ∧ t.usel = s.usel ∧ t.cell S o = loByte w ∧
      t.cell S' o' = hiByte w := by
  refine ⟨_, exec_wrw_live live, by simpa using live, by simp, ?_, ?_⟩
  · rw [answer_cell, afterWrite_cell_of_ne (low ▸ route_nextAddr_ne s.usel a), afterWrite_cell, if_pos low]
  · rw [answer_cell, afterWrite_cell, if_pos high]

/-- RDW with both bytes in stores joins the two cells, the one of its address low. -/
theorem exec_rdw_cells {s : State} {a : Addr} {S S' : Store} {o o' : Nat} {lo hi : Byte} (live : s.fault = none)
    (low : route s.usel a = .cell S o) (high : route s.usel (nextAddr a) = .cell S' o') (heldLow : s.cell S o = lo)
    (heldHigh : s.cell S' o' = hi) :
    ∃ t, exec (.rdw a) s = .next t ∧ t.results = s.results ++ [.word (joinWord hi lo)] := by
  refine ⟨_, exec_rdw_live live, ?_⟩
  simp [low, high, valueAt, heldLow, heldHigh]

/-- Settles O15: the cells of the two bytes are apart, so the second byte written leaves the first in its place. -/
theorem wordsAreLittleEndian : Obligations.WordsAreLittleEndian := by
  intro s a w S S' o o' live low (high : route s.usel (nextAddr a) = .cell S' o')
  constructor
  · obtain ⟨t, run, live', husel, heldLow, heldHigh⟩ := exec_wrw_cells w live low high
    exact ⟨t, run, heldLow, heldHigh, exec_rdb_cell live' (husel ▸ low) heldLow,
      exec_rdb_cell live' (husel ▸ high) heldHigh⟩
  · have apart : Target.cell S' o' ≠ .cell S o := low ▸ high ▸ route_nextAddr_ne s.usel a
    obtain ⟨t1, run1, live1, husel1, -, heldLow, -⟩ := exec_wrb_cell (loByte w) live low
    obtain ⟨t2, run2, live2, husel2, -, heldHigh, others⟩ := exec_wrb_cell (hiByte w) live1 (husel1 ▸ high)
    obtain ⟨u, run, hu⟩ := exec_rdw_cells live2 (husel2 ▸ husel1 ▸ low) (husel2 ▸ husel1 ▸ high)
      ((others S o apart).trans heldLow) heldHigh
    exact ⟨t1, t2, u, run1, run2, run, by rw [hu, joinWord_halves]⟩

/-- The address after the last is the first (`20_memory.md` R54). -/
theorem route_nextAddr_top (usel : BankSelect) : route usel (nextAddr 0xFFFF#16) = .cell .ram 0 := rfl

theorem route_top (usel : BankSelect) : route usel 0xFFFF#16 = .cell (upperBank usel) 0x3FFF := rfl

/-- Settles O16: the low byte's place is the last cell of the upper window's store, the high byte's is RAM[0]. -/
theorem wordAtTheTopWrapsToZero : Obligations.WordAtTheTopWrapsToZero := by
  intro s w live upper
  have bank : upper = upperBank s.usel := rfl
  have low : route s.usel 0xFFFF#16 = .cell upper 0x3FFF := bank ▸ route_top s.usel
  have high := route_nextAddr_top s.usel
  constructor
  · obtain ⟨t, run, -, -, heldLow, heldHigh⟩ := exec_wrw_cells w live low high
    exact ⟨t, run, heldLow, heldHigh⟩
  · obtain ⟨t, run, ht⟩ := exec_rdw_cells live low high rfl rfl
    exact ⟨t, run, by rw [ht, joinWord_append]⟩

/-! ## Frames -/

/-- Settles O22: reading at a place changes the histories only, and the proxy's only behind its window. -/
theorem readFrame : Obligations.ReadFrame := by
  intro s t a
  constructor
  · intro h
    rw [eq_accessed_of_next (isAccess_rdb a) h]
    refine ⟨fun S o => accessed_cell_of_ne (.inl rfl), accessed_usel .., accessed_fault .., accessed_cfg ..,
      accessed_session .., accessed_pending .., ?_⟩
    rintro ⟨S, o, routed⟩
    simp [routed]
  · intro h
    have live : s.fault = none := live_of_next (k := finish _) h
    rw [exec_rdw_live live] at h
    obtain rfl := Host.Outcome.next.inj h
    refine ⟨fun S o => by simp, by simp, by simp, by simp, by simp, by simp, ?_⟩
    rintro ⟨S, o, low⟩ ⟨S', o', high⟩
    simp [low, high]

/-- Settles O23: writing at a place changes that cell, or the proxy's history, and no other. -/
theorem writeFrame : Obligations.WriteFrame := by
  intro s t a
  constructor
  · intro v h
    rw [eq_accessed_of_next (isAccess_wrb a v) h]
    refine ⟨fun S o apart => accessed_cell_of_ne (.inr apart), accessed_usel .., accessed_fault .., accessed_cfg ..,
      accessed_session .., accessed_write_draws .., accessed_pending .., ?_⟩
    rintro ⟨S, o, routed⟩
    simp [routed]
  · intro w h
    have live : s.fault = none := live_of_next (k := finish _) h
    rw [exec_wrw_live live] at h
    obtain rfl := Host.Outcome.next.inj h
    refine ⟨fun S o apart apart' => ?_, by simp, by simp, by simp, by simp, by simp, by simp, ?_⟩
    · rw [answer_cell, afterWrite_cell_of_ne apart', afterWrite_cell_of_ne apart]
    · rintro ⟨S, o, low⟩ ⟨S', o', high⟩
      simp [low, high]

/-- Settles O26: a window row is one byte access at the place the router finds. -/
theorem windowRowFrame : Obligations.WindowRowFrame := by
  intro s t i a acc row h
  rw [eq_accessed_of_next (.inl row) h]
  refine ⟨fun S o => accessed_cell_of_ne, accessed_usel .., accessed_fault .., accessed_cfg ..,
    accessed_session .., accessed_pending .., ?_⟩
  rintro ⟨S, o, routed⟩
  simp [routed]

/-! ## Steps -/

/-- Settles O54: the oldest request is taken, then carried out. -/
theorem stepRunsTheDecodedInstruction : Obligations.StepRunsTheDecodedInstruction := by
  constructor
  · intro s t rest i queue dec
    simp only [step, takeRequest, queue, dec]
  · intro s queue
    simp only [step, takeRequest, queue]

end Sys2Proof.Machine
end

section
/-! The statements of `30_encoding.md`: the decoder and the encoder, format by format, and what a window row and a
header byte do. -/

namespace Sys2Proof.Machine

/-! ## Command words (`CMD36`) -/

@[simp] theorem cmdWord_op (op : BitVec 4) (addr data : BitVec 16) : (cmdWord op addr data).extractLsb' 32 4 = op := by
  simp (disch := omega) only [cmdWord, BitVec.extractLsb'_append_eq_of_le, BitVec.extractLsb'_eq_self,
    Nat.reduceSub]

@[simp] theorem cmdWord_addr (op : BitVec 4) (addr data : BitVec 16) :
    (cmdWord op addr data).extractLsb' 16 16 = addr := by
  simp (disch := omega) only [cmdWord, BitVec.extractLsb'_append_eq_of_le, BitVec.extractLsb'_append_eq_right,
    Nat.reduceSub]

@[simp] theorem cmdWord_data (op : BitVec 4) (addr data : BitVec 16) :
    (cmdWord op addr data).extractLsb' 0 16 = data :=
  BitVec.extractLsb'_append_eq_right

@[simp] theorem cmdWord_data_low (op : BitVec 4) (addr data : BitVec 16) :
    (cmdWord op addr data).extractLsb' 0 8 = data.extractLsb' 0 8 :=
  BitVec.extractLsb'_append_eq_of_add_le (by decide)

theorem decode_rdbWord (addr data : BitVec 16) (bytes : List Byte) :
    decode (.cmd (cmdWord 0x0#4 addr data) bytes) = .ok (.rdb addr) := by
  simp [decode, decodeCmd]

theorem decode_wrbWord (addr data : BitVec 16) (bytes : List Byte) :
    decode (.cmd (cmdWord 0x1#4 addr data) bytes) = .ok (.wrb addr (data.extractLsb' 0 8)) := by
  simp [decode, decodeCmd]

theorem decode_rdwWord (addr data : BitVec 16) (bytes : List Byte) :
    decode (.cmd (cmdWord 0x2#4 addr data) bytes) = .ok (.rdw addr) := by
  simp [decode, decodeCmd]

theorem decode_wrwWord (addr data : BitVec 16) (bytes : List Byte) :
    decode (.cmd (cmdWord 0x3#4 addr data) bytes) = .ok (.wrw addr data) := by
  simp [decode, decodeCmd]

theorem decode_installWord (addr data : BitVec 16) (bytes : List Byte) :
    decode (.cmd (cmdWord 0x4#4 addr data) bytes) = .ok (.install bytes) := by
  simp [decode, decodeCmd]

theorem decode_hdrdecWord (addr data : BitVec 16) (bytes : List Byte) :
    decode (.cmd (cmdWord 0x5#4 addr data) bytes) = .ok (.hdrdec bytes) := by
  simp [decode, decodeCmd]

/-- Settles O2: the fields of a word are found again whatever the others hold. -/
theorem commandWordsSelectOperations : Obligations.CommandWordsSelectOperations :=
  fun addr data bytes => ⟨decode_rdbWord addr data bytes, decode_wrbWord addr data bytes,
    decode_rdwWord addr data bytes, decode_wrwWord addr data bytes, decode_installWord addr data bytes,
    decode_hdrdecWord addr data bytes⟩

/-- A code from 6 up is none of the six (R90). -/
theorem decode_reservedWord {word : BitVec 36} (reserved : 6 ≤ (word.extractLsb' 32 4).toNat) (bytes : List Byte) :
    decode (.cmd word bytes) = .error (.reservedOpcode (word.extractLsb' 32 4)) := by
  have other (code : BitVec 4) (low : code.toNat < 6) : word.extractLsb' 32 4 ≠ code := by
    rintro rfl
    omega
  simp (disch := decide) only [decode, decodeCmd, other, if_false]

/-- Settles O3: what the decoder gives no instruction, the step refuses under the decoder's name. -/
theorem reservedCodesAreRefused : Obligations.ReservedCodesAreRefused := by
  intro s word bytes rest reserved
  have dec := decode_reservedWord reserved bytes
  exact ⟨dec, by simp only [step, takeRequest, dec, decodeRefusal]⟩

/-! ## Bus addresses (`A16`) -/

/-- The mask leaves low bits free, and the match has them clear. -/
abbrev IsRangeRow (mask pattern : Addr) : Prop :=
  ∃ k < 16, mask = BitVec.allOnes 16 <<< k ∧ pattern.toNat % 2 ^ k = 0

/-- Such a row is a range of addresses. -/
theorem matches_iff_range {mask pattern : Addr} (row : IsRangeRow mask pattern) (a : Addr) :
    a &&& mask = pattern ↔ pattern.toNat ≤ a.toNat ∧ a.toNat < pattern.toNat + (0x10000 - mask.toNat) := by
  obtain ⟨k, hk, rfl, aligned⟩ := row
  have size : ∀ k < 16, 0x10000 - (BitVec.allOnes 16 <<< k).toNat = 2 ^ k := by decide
  obtain ⟨q, hq⟩ := Nat.dvd_of_mod_eq_zero aligned
  have pos : 0 < 2 ^ k := Nat.two_pow_pos k
  rw [and_mask_eq_iff, size k hk, hq, Nat.mul_comm (2 ^ k) q, Nat.mul_right_cancel_iff pos, Nat.div_eq_iff pos]
  omega

/-- The rows lie end to end as ranges, from the address `low` to the end of the address space. -/
def rowsTile : Nat → List (Addr × Addr) → Bool
  | low, [] => low == 0x10000
  | low, (mask, pattern) :: rows =>
    decide (IsRangeRow mask pattern) && pattern.toNat == low && rowsTile (low + (0x10000 - mask.toNat)) rows

theorem busRows_tile : rowsTile 0 busRows = true := by
  decide

/-- Of rows that lie end to end one matches an address in their reach, and none an address below it. -/
theorem matching_length_of_tile {low : Nat} {rows : List (Addr × Addr)} (tile : rowsTile low rows = true) (a : Addr) :
    (rows.filter fun r => a &&& r.1 == r.2).length = if low ≤ a.toNat then 1 else 0 := by
  induction rows generalizing low with
  | nil =>
    have := a.isLt
    simp only [rowsTile, beq_iff_eq] at tile
    rw [if_neg (by omega)]
    rfl
  | cons r rows ih =>
    simp only [rowsTile, Bool.and_eq_true, decide_eq_true_eq, beq_iff_eq] at tile
    obtain ⟨⟨row, rfl⟩, rest⟩ := tile
    rw [List.filter_cons]
    split_ifs with here above above <;> simp only [beq_iff_eq, matches_iff_range row] at here
    · rw [List.length_cons, ih rest, if_neg (by omega)]
    · omega
    · rw [ih rest, if_pos (by omega)]
    · rw [ih rest, if_neg (by omega)]

/-- The row of the decoded instruction is the row that the address matches. -/
theorem decodeBus_matchesRow (a : Addr) (acc : Access) :
    (Txn.bus a acc).matchesRow (tableRow (decodeBus a acc)).1 (tableRow (decodeBus a acc)).2 = true := by
  fun_cases decodeBus a acc
  case case14 =>
    simp (disch := decide) only [matches_iff_range, Txn.matchesRow, tableRow, beq_iff_eq, BitVec.toNat_ofNat] at *
    omega
  all_goals exact beq_iff_eq.mpr ‹a &&& _ = _›

/-- The fields of the matching row and its fixed bits spell the address. Of the decoder's tests only the one that
succeeded matters. -/
theorem encode_decodeBus (a : Addr) (acc : Access) : encode (decodeBus a acc) = .bus a acc := by
  have row := decodeBus_matchesRow a acc
  revert row
  fun_cases decodeBus a acc
  all_goals
    clear * -
    intro row
    simp (disch := decide) only [Txn.matchesRow, tableRow, beq_iff_eq, matches_iff_range, BitVec.toNat_ofNat] at row
    refine congrArg (Txn.bus · acc) (BitVec.eq_of_toNat_eq ?_)
    simp only [toNat_append_add, extract_toNat, BitVec.toNat_ofNat]
    omega

/-- The address of a window row matches no row tried before its own. -/
theorem decodeBus_of_encode {i : Instr} {a : Addr} {acc : Access} (h : encode i = .bus a acc) :
    decodeBus a acc = i := by
  cases i <;> simp only [encode, extByte, Txn.bus.injEq, reduceCtorEq] at h
  all_goals
    obtain ⟨rfl, rfl⟩ := h
    simp (disch := simp (disch := decide) only [matches_iff_range, toNat_append_add, BitVec.toNat_ofNat]; omega) only
      [decodeBus, if_pos, if_neg]
    simp only [BitVec.extractLsb'_append_eq_right, BitVec.extractLsb'_append_eq_of_le, Nat.le_refl, Nat.sub_self]

/-- Settles O4: the rows tile the address space, and the decoder picks the one that matches. -/
theorem windowRowsPartitionAddresses : Obligations.WindowRowsPartitionAddresses := by
  intro a acc
  refine ⟨?_, decodeBus_matchesRow a acc, encode_decodeBus a acc⟩
  rw [matching_length_of_tile busRows_tile, if_pos a.toNat.zero_le]

/-- Settles O25: RDB, WRB and the row are one access at the place the router finds. -/
theorem windowRowsAreTheByteAccesses : Obligations.WindowRowsAreTheByteAccesses := by
  refine fun s a => ⟨?_, fun v => ?_⟩
  · rw [exec_of_bus (encode_decodeBus a .read), exec_access (isAccess_rdb a)]
  · rw [exec_of_bus (encode_decodeBus a (.write v)), exec_access (isAccess_wrb a v)]

/-- Settles O7: the window begins at a multiple of 8, so reducing the address modulo 8 keeps its low three bits. -/
theorem proxyAddressIsReducedModuloEight : Obligations.ProxyAddressIsReducedModuloEight := by
  intro usel a low high
  have hp : (BitVec.ofNat 16 (0x2000 + (a.toNat - 0x2000) % 8)).toNat = 0x2000 + (a.toNat - 0x2000) % 8 := by
    rw [BitVec.toNat_ofNat]
    omega
  refine ⟨_, route_ppu low high, hp, BitVec.eq_of_toNat_eq ?_, BitVec.eq_of_toNat_eq ?_⟩
  · rw [extract_toNat, hp, BitVec.toNat_ofNat]
    omega
  · rw [extract_toNat, extract_toNat, hp]
    omega

/-! ## Header bytes (`HDR8`) -/

/-- Masking byte 7 to its version field. -/
theorem versionMask_eq_iff (b : Byte) (v : BitVec 2) : b &&& 0x0C#8 = 0#4 ++ v ++ 0#2 ↔ b.extractLsb' 2 2 = v := by
  have field : b &&& 0x0C#8 = 0#4 ++ b.extractLsb' 2 2 ++ 0#2 := by
    refine BitVec.eq_of_getLsbD_eq fun i hi => ?_
    simp only [BitVec.getLsbD_and, BitVec.getLsbD_append, BitVec.getLsbD_extractLsb']
    interval_cases i <;> simp
  rw [field, BitVec.append_left_inj, BitVec.append_right_inj]

theorem mask0C_08 (b : Byte) : b &&& 0x0C#8 = 0x08#8 ↔ b.extractLsb' 2 2 = 0b10#2 := versionMask_eq_iff b 0b10#2
theorem mask0C_00 (b : Byte) : b &&& 0x0C#8 = 0x00#8 ↔ b.extractLsb' 2 2 = 0b00#2 := versionMask_eq_iff b 0b00#2
theorem mask0C_04 (b : Byte) : b &&& 0x0C#8 = 0x04#8 ↔ b.extractLsb' 2 2 = 0b01#2 := versionMask_eq_iff b 0b01#2

/-- Bytes 8 to 15 in the extended version (R82). -/
theorem decodeHeader_of_extended {index : Fin 16} {h7 : Byte} (tail : 8 ≤ index.val) (ext : isExtended h7 = true)
    (b : Byte) : decodeHeader index h7 b = decodeHeaderExt index h7 b := by
  unfold decodeHeader
  split
  case h_9 => exact if_pos ext
  all_goals omega

/-- Bytes 8 to 15 in the legacy version (R84). -/
theorem decodeHeader_of_legacy {index : Fin 16} {h7 : Byte} (tail : 8 ≤ index.val) (legacy : isExtended h7 = false)
    (b : Byte) : decodeHeader index h7 b = .hdrB13Ign := by
  unfold decodeHeader
  split
  case h_9 => exact if_neg (by simp [legacy])
  all_goals omega

/-- Settles O6: the byte is HDR.B13.IGN's, which gives no field in any state. -/
theorem legacyHeaderBytesAreNotDecoded : Obligations.LegacyHeaderBytesAreNotDecoded := by
  intro s index h7 b rest tail version
  have legacy : isExtended h7 = false := beq_eq_false_iff_ne.mpr version
  have dec : decode (.header index h7 b) = .ok .hdrB13Ign := congrArg Except.ok (decodeHeader_of_legacy tail legacy b)
  obtain ⟨run, -⟩ := stepRunsTheDecodedInstruction
  exact run _ _ rest _ rfl dec

/-- A byte presented beside the byte 7 that the encoder chooses is read as one of an extended header. -/
theorem decode_extByte {index : Fin 16} (tail : 8 ≤ index.val) (console : BitVec 2) (b : Byte) :
    decode (extByte index console b) = .ok (decodeHeaderExt index (0b000010#6 ++ console) b) := by
  have ext : isExtended (0b000010#6 ++ console) = true := by
    simp only [isExtended, BitVec.extractLsb'_append_eq_of_le, Nat.le_refl, beq_iff_eq]
    rfl
  exact congrArg Except.ok (decodeHeader_of_extended tail ext b)

/-! The rows of bytes 8 to 15, one equation for each position. -/

theorem decodeHeaderExt_8 (h7 b : Byte) : decodeHeaderExt 8 h7 b = .hdrB8 (b.extractLsb' 4 4) (b.extractLsb' 0 4) :=
  rfl

theorem decodeHeaderExt_9 (h7 b : Byte) : decodeHeaderExt 9 h7 b = .hdrB9 (b.extractLsb' 4 4) (b.extractLsb' 0 4) :=
  rfl

theorem decodeHeaderExt_10 (h7 b : Byte) : decodeHeaderExt 10 h7 b = .hdrB10 (b.extractLsb' 4 4) (b.extractLsb' 0 4) :=
  rfl

theorem decodeHeaderExt_11 (h7 b : Byte) : decodeHeaderExt 11 h7 b = .hdrB11 (b.extractLsb' 4 4) (b.extractLsb' 0 4) :=
  rfl

theorem decodeHeaderExt_12 (h7 b : Byte) : decodeHeaderExt 12 h7 b = .hdrB12 (b.extractLsb' 0 2) :=
  rfl

theorem decodeHeaderExt_13 (h7 b : Byte) : decodeHeaderExt 13 h7 b = decodeHeader13 h7 b :=
  rfl

theorem decodeHeaderExt_14 (h7 b : Byte) : decodeHeaderExt 14 h7 b = .hdrB14 (b.extractLsb' 0 2) :=
  rfl

theorem decodeHeaderExt_15 (h7 b : Byte) : decodeHeaderExt 15 h7 b = .hdrB15 (b.extractLsb' 0 6) :=
  rfl

/-- The bits of a byte 6 put together from its fields. -/
theorem decodeHeader_6_fields (h7 : Byte) (m : BitVec 4) (f t b v : Bool) :
    decodeHeader 6 h7 (m ++ BitVec.ofBool f ++ BitVec.ofBool t ++ BitVec.ofBool b ++ BitVec.ofBool v) =
      .hdrB6 m f t b v := by
  change Instr.hdrB6 _ _ _ _ _ = _
  congr 1
  · simp (disch := omega) only [BitVec.extractLsb'_append_eq_of_le, BitVec.extractLsb'_eq_self, Nat.reduceSub]
  all_goals
    simp only [BitVec.getLsbD_append]
    simp

/-- A byte 7 put together from its fields: the version field chooses the row. -/
theorem decodeHeader7_fields (mid : BitVec 4) (version low : BitVec 2) :
    decodeHeader7 (mid ++ version ++ low) =
      if version = 0b10#2 then .hdrB7Ext mid low
      else if version = 0b00#2 then .hdrB7Leg00 mid low
      else if version = 0b01#2 then .hdrB7Leg01 mid low
      else .hdrB7Leg11 mid low := by
  simp (disch := omega) only [decodeHeader7, mask0C_08, mask0C_00, mask0C_04, BitVec.extractLsb'_append_eq_of_le,
    BitVec.extractLsb'_append_eq_right, BitVec.extractLsb'_eq_self, Nat.reduceSub]

/-- The console type beside a byte 13 chooses its row. -/
theorem decodeHeader13_console (high : BitVec 6) (console : BitVec 2) (b : Byte) :
    decodeHeader13 (high ++ console) b =
      if console = 1#2 then .hdrB13Vs (b.extractLsb' 4 4) (b.extractLsb' 0 4)
      else if console = 3#2 then .hdrB13Extcon (b.extractLsb' 0 4) else .hdrB13Ign := by
  simp only [decodeHeader13, BitVec.extractLsb'_append_eq_right]

/-! ## The round trip -/

/-- Settles O1, format by format. -/
theorem decodeInvertsEncode : Obligations.DecodeInvertsEncode := by
  intro i
  cases i
  case rdb a => exact decode_rdbWord a _ _
  case wrb a v => exact (decode_wrbWord a _ _).trans (by rw [BitVec.extractLsb'_append_eq_right])
  case rdw a => exact decode_rdwWord a _ _
  case wrw a w => exact decode_wrwWord a w _
  case install bytes => exact decode_installWord _ _ bytes
  case hdrdec input => exact decode_hdrdecWord _ _ input
  case winRam | winPpu | winIow | winExp1 | winExp2 | winExp3 | winExp4 | winExp5 | winExp6 | winExp7 | winExp8 |
      winExp9 | winPrgl | winPrgu => exact congrArg Except.ok (decodeBus_of_encode rfl)
  case pxRd | pxWr => rfl
  case hdrB0 | hdrB1 | hdrB2 | hdrB3 | hdrB4 | hdrB5 => rfl
  case hdrB6 m f t b v => exact congrArg Except.ok (decodeHeader_6_fields _ m f t b v)
  case hdrB7Ext mid console => exact congrArg Except.ok (decodeHeader7_fields mid 0b10#2 console)
  case hdrB7Leg00 mid flags => exact congrArg Except.ok (decodeHeader7_fields mid 0b00#2 flags)
  case hdrB7Leg01 mid flags => exact congrArg Except.ok (decodeHeader7_fields mid 0b01#2 flags)
  case hdrB7Leg11 mid flags => exact congrArg Except.ok (decodeHeader7_fields mid 0b11#2 flags)
  case hdrB13Ign => rfl
  case hdrB8 | hdrB9 | hdrB10 | hdrB11 | hdrB12 | hdrB13Vs | hdrB13Extcon | hdrB14 | hdrB15 =>
    rw [encode, decode_extByte (by decide)]
    simp only [decodeHeaderExt_8, decodeHeaderExt_9, decodeHeaderExt_10, decodeHeaderExt_11, decodeHeaderExt_12,
      decodeHeaderExt_13, decodeHeaderExt_14, decodeHeaderExt_15, decodeHeader13_console, BitVec.reduceEq, if_true,
      if_false, BitVec.extractLsb'_append_eq_right, BitVec.extractLsb'_append_eq_left]

/-- Settles O5: words written out from the encoding rules. -/
theorem writtenOutWordsDecode : Obligations.WrittenOutWordsDecode :=
  ⟨rfl, rfl, rfl, rfl, rfl, rfl, rfl⟩

/-! ## What a header byte gives -/

theorem giveIdByte_of_eq {b expected : Byte} {s : State} (agree : b = expected) :
    giveIdByte b expected s = .next (s.answer (.part (.idByte b))) :=
  if_pos agree

theorem giveIdByte_of_ne {b expected : Byte} {s : State} (differ : b ≠ expected) :
    giveIdByte b expected s = .next (s.answer (.parseFailure .invalidFormat)) :=
  if_neg differ

/-- Settles O46: an identification byte is compared with MAGIC's, every other row gives its fields unconditionally. -/
theorem headerByteRowsGiveTheirFields : Obligations.HeaderByteRowsGiveTheirFields :=
  fun _ => ⟨fun _ => ⟨giveIdByte_of_eq, giveIdByte_of_ne⟩, fun _ => ⟨giveIdByte_of_eq, giveIdByte_of_ne⟩,
    fun _ => ⟨giveIdByte_of_eq, giveIdByte_of_ne⟩, fun _ => ⟨giveIdByte_of_eq, giveIdByte_of_ne⟩,
    fun _ => rfl, fun _ => rfl, fun _ _ _ _ _ => rfl, fun _ _ => rfl, fun _ _ => rfl, fun _ _ => rfl, fun _ _ => rfl,
    fun _ _ => rfl, fun _ _ => rfl, fun _ _ => rfl, fun _ _ => rfl, fun _ => rfl, fun _ _ => rfl, fun _ => rfl, rfl,
    fun _ => rfl, fun _ => rfl⟩

/-! ## The record and its bytes -/

/-- The mapper number is its three nibbles side by side. -/
theorem joinMapper_append (hi mid lo : BitVec 4) : joinMapper hi mid lo = hi ++ mid ++ lo := by
  refine BitVec.eq_of_getLsbD_eq fun i hlt => ?_
  simp only [joinMapper, BitVec.getLsbD_or, BitVec.getLsbD_shiftLeft, BitVec.getLsbD_setWidth, BitVec.getLsbD_append]
  interval_cases i <;> simp

theorem joinMapper_toNat (hi mid lo : BitVec 4) :
    (joinMapper hi mid lo).toNat = hi.toNat * 256 + mid.toNat * 16 + lo.toNat := by
  simp only [joinMapper_append, toNat_append_add]
  omega

/-- A ROM size is its high nibble beside its low byte. -/
theorem joinSize_append (msb : BitVec 4) (lsb : Byte) : joinSize msb lsb = msb ++ lsb := by
  refine BitVec.eq_of_getLsbD_eq fun i hlt => ?_
  simp only [joinSize, BitVec.getLsbD_or, BitVec.getLsbD_shiftLeft, BitVec.getLsbD_setWidth, BitVec.getLsbD_append]
  interval_cases i <;> simp

theorem joinSize_toNat (msb : BitVec 4) (lsb : Byte) : (joinSize msb lsb).toNat = msb.toNat * 256 + lsb.toNat := by
  simp only [joinSize_append, toNat_append_add, Nat.reducePow]

/-- A header that passes the two checks gives the record of its bytes, and its first four bytes are MAGIC. -/
theorem headerDecode_ok {magic : IdTag} {input : List Byte} {r : CartridgeHeader}
    (h : headerDecode magic input = .ok r) : idTagOf input = magic ∧ r = headerRecord input := by
  unfold headerDecode at h
  split_ifs at h with short other
  exact ⟨not_not.mp other, (Except.ok.inj h).symm⟩

/-! Fields of the extended version, in either version. -/

section
variable {α : Type} {input : List Byte}

theorem ifExtended_of_extended (ext : isExtended (headerByte input 7) = true) (v : α) : ifExtended input v = some v :=
  if_pos ext

theorem ifExtended_of_legacy (legacy : isExtended (headerByte input 7) = false) (v : α) :
    ifExtended input v = none := by
  simp [ifExtended, legacy]

theorem extNibble_of_extended (ext : isExtended (headerByte input 7) = true) (n : BitVec 4) : extNibble input n = n :=
  if_pos ext

theorem extNibble_of_legacy (legacy : isExtended (headerByte input 7) = false) (n : BitVec 4) :
    extNibble input n = 0#4 := by
  simp [extNibble, legacy]

theorem ifConsole_of_extended (ext : isExtended (headerByte input 7) = true) (console : BitVec 2) (v : α) :
    ifConsole input console v = if consoleOf (headerByte input 7) = console then some v else none := by
  simp [ifConsole, ext]

theorem ifConsole_of_legacy (legacy : isExtended (headerByte input 7) = false) (console : BitVec 2) (v : α) :
    ifConsole input console v = none := by
  simp [ifConsole, legacy]

end

/-- The instruction completes, and the record holds what it gives. -/
def GivesPartOf (s : State) (r : CartridgeHeader) (i : Instr) : Prop :=
  ∃ p, exec i s = .next (s.answer (.part p)) ∧ p.agrees r

/-- A byte 7 gives its version, its nibble and its console field, whichever of the four rows it is of. -/
theorem exec_decodeHeader7 (b : Byte) (s : State) :
    exec (decodeHeader7 b) s = give7 (versionOf b) (highNibble b) (consoleOf b) s := by
  simp only [decodeHeader7, mask0C_08, versionOf, isExtended, beq_iff_eq]
  split_ifs <;> rfl

theorem givesPartOf_byte6 (s : State) (input : List Byte) (h7 : Byte) :
    GivesPartOf s (headerRecord input) (decodeHeader 6 h7 (headerByte input 6)) := by
  refine ⟨_, rfl, ?_, rfl, rfl, rfl, rfl, rfl, rfl⟩
  have := (highNibble (headerByte input 6)).isLt
  show (joinMapper _ _ _).toNat % 16 = (highNibble (headerByte input 6)).toNat
  rw [joinMapper_toNat]
  omega

theorem givesPartOf_byte7 (s : State) (input : List Byte) :
    GivesPartOf s (headerRecord input) (decodeHeader7 (headerByte input 7)) := by
  refine ⟨_, exec_decodeHeader7 _ s, rfl, ?_, rfl, rfl, rfl⟩
  show (joinMapper _ _ _).toNat / 16 % 16 = (highNibble (headerByte input 7)).toNat
  rw [joinMapper_toNat]
  omega

/-- An ignored byte of a legacy header: the record has no extended field. -/
theorem givesPartOf_ignored_of_legacy (s : State) {input : List Byte}
    (legacy : isExtended (headerByte input 7) = false) : GivesPartOf s (headerRecord input) .hdrB13Ign := by
  have field {α : Type} (v : α) := ifExtended_of_legacy legacy v
  have subType {α : Type} (console : BitVec 2) (v : α) := ifConsole_of_legacy legacy console v
  have nibble := extNibble_of_legacy legacy
  refine ⟨.ignored, rfl, subType _ _, subType _ _, subType _ _, fun _ => ⟨?_, nibble _, nibble _, field _, field _,
    field _, field _, field _, field _, field _, field _, field _, field _, field _, field _⟩⟩
  show (joinMapper (extNibble input _) _ _).toNat < 256
  rw [nibble, joinMapper_toNat, BitVec.toNat_ofNat]
  omega

/-- A byte 13 of an extended header: the console type chooses the row and the record's sub-type with it. -/
theorem givesPartOf_byte13 (s : State) {input : List Byte} (ext : isExtended (headerByte input 7) = true) :
    GivesPartOf s (headerRecord input) (decodeHeader13 (headerByte input 7) (headerByte input 13)) := by
  simp only [decodeHeader13]
  split_ifs with vs extcon
  all_goals refine ⟨_, rfl, ?_⟩
  · simp [HeaderPart.agrees, headerRecord, ifConsole_of_extended ext, consoleOf, vs, highNibble, lowNibble]
  · simp [HeaderPart.agrees, headerRecord, ifConsole_of_extended ext, consoleOf, extcon, highNibble, lowNibble]
  · simp [HeaderPart.agrees, headerRecord, ifConsole_of_extended ext, consoleOf, vs, extcon, versionOf, ext]

/-- A byte 8 to 15 of an extended header. -/
theorem givesPartOf_extended (s : State) {input : List Byte} {index : Fin 16} (tail : 8 ≤ index.val)
    (ext : isExtended (headerByte input 7) = true) :
    GivesPartOf s (headerRecord input)
      (decodeHeaderExt index (headerByte input 7) (headerByte input index.val)) := by
  have field {α : Type} (v : α) := ifExtended_of_extended ext v
  have nibble := extNibble_of_extended ext
  obtain ⟨i, hi⟩ := index
  change 8 ≤ i at tail
  interval_cases i -- one goal for each position, from 8 to 15
  · refine ⟨_, rfl, field _, ?_⟩
    show (joinMapper (extNibble input _) _ _).toNat / 256 = (lowNibble (headerByte input 8)).toNat
    rw [nibble, joinMapper_toNat]
    omega
  · refine ⟨_, rfl, nibble _, nibble _, ?_, ?_⟩
    · show (joinSize (extNibble input _) _).toNat / 256 = (highNibble (headerByte input 9)).toNat
      rw [nibble, joinSize_toNat]
      omega
    · show (joinSize (extNibble input _) _).toNat / 256 = (lowNibble (headerByte input 9)).toNat
      rw [nibble, joinSize_toNat]
      omega
  · exact ⟨_, rfl, field _, field _, field _, field _⟩
  · exact ⟨_, rfl, field _, field _, field _, field _⟩
  · exact ⟨_, rfl, field _⟩
  · exact givesPartOf_byte13 s ext
  · exact ⟨_, rfl, field _⟩
  · exact ⟨_, rfl, field _⟩

/-- An identification byte of a header that passes the check. -/
theorem giveIdByte_agrees {s : State} {b expected : Byte} (agree : b = expected) {r : CartridgeHeader}
    (held : b ∈ [r.idTag.b0, r.idTag.b1, r.idTag.b2, r.idTag.b3]) :
    ∃ p, giveIdByte b expected s = .next (s.answer (.part p)) ∧ p.agrees r :=
  ⟨_, giveIdByte_of_eq agree, held⟩

/-- Every byte of a header that passes the check. -/
theorem givesPartOf_decodeHeader (s : State) {input : List Byte} (tag : idTagOf input = s.cfg.magic) (index : Fin 16) :
    GivesPartOf s (headerRecord input) (decodeHeader index (headerByte input 7) (headerByte input index.val)) := by
  by_cases tail : 8 ≤ index.val
  · cases version : isExtended (headerByte input 7) with
    | true =>
      rw [decodeHeader_of_extended tail version]
      exact givesPartOf_extended s tail version
    | false =>
      rw [decodeHeader_of_legacy tail version]
      exact givesPartOf_ignored_of_legacy s version
  obtain ⟨i, hi⟩ := index
  change ¬ 8 ≤ i at tail
  interval_cases i -- one goal for each position, from 0 to 7
  · exact giveIdByte_agrees (congrArg IdTag.b0 tag) (by simp [headerRecord, idTagOf])
  · exact giveIdByte_agrees (congrArg IdTag.b1 tag) (by simp [headerRecord, idTagOf])
  · exact giveIdByte_agrees (congrArg IdTag.b2 tag) (by simp [headerRecord, idTagOf])
  · exact giveIdByte_agrees (congrArg IdTag.b3 tag) (by simp [headerRecord, idTagOf])
  · exact ⟨_, rfl, rfl⟩
  · exact ⟨_, rfl, rfl⟩
  · exact givesPartOf_byte6 s input _
  · exact givesPartOf_byte7 s input

/-- Settles O47: the byte decodes to one row, which gives what the record took from that byte. -/
theorem recordAgreesWithItsHeaderBytes : Obligations.RecordAgreesWithItsHeaderBytes := by
  intro s input r index h
  obtain ⟨tag, rfl⟩ := headerDecode_ok h
  obtain ⟨p, run, agree⟩ := givesPartOf_decodeHeader s tag index
  exact ⟨_, p, rfl, run, agree⟩

end Sys2Proof.Machine
end

section
/-! The statements of `40_header_decode.md`: the two checks of HDRDEC, the fields of the record it gives, and the bytes
they depend on. -/

namespace Sys2Proof.Machine

/-! ## The two checks -/

theorem headerDecode_of_short {magic : IdTag} {input : List Byte} (short : input.length < 16) :
    headerDecode magic input = .error .truncatedHeader :=
  if_pos short

theorem headerDecode_of_magic {magic : IdTag} {input : List Byte} (long : 16 ≤ input.length)
    (tag : idTagOf input = magic) : headerDecode magic input = .ok (headerRecord input) := by
  rw [headerDecode, if_neg (Nat.not_lt.mpr long), if_neg (not_not.mpr tag)]

theorem headerDecode_of_ne_magic {magic : IdTag} {input : List Byte} (long : 16 ≤ input.length)
    (other : idTagOf input ≠ magic) : headerDecode magic input = .error .invalidFormat := by
  rw [headerDecode, if_neg (Nat.not_lt.mpr long), if_pos other]

theorem idTagOf_ne_iff {magic : IdTag} {input : List Byte} :
    idTagOf input ≠ magic ↔ headerByte input 0 ≠ magic.b0 ∨ headerByte input 1 ≠ magic.b1 ∨
      headerByte input 2 ≠ magic.b2 ∨ headerByte input 3 ≠ magic.b3 := by
  obtain ⟨b0, b1, b2, b3⟩ := magic
  simp only [idTagOf, ne_eq, IdTag.mk.injEq, not_and_or]

theorem exec_hdrdec_of_ok {s : State} {input : List Byte} {r : CartridgeHeader}
    (dec : headerDecode s.cfg.magic input = .ok r) : exec (.hdrdec input) s = .next (s.answer (.header r)) := by
  simp only [exec, execHdrdec, dec]

theorem exec_hdrdec_of_error {s : State} {input : List Byte} {e : ParseFailure}
    (dec : headerDecode s.cfg.magic input = .error e) :
    exec (.hdrdec input) s = .next (s.answer (.parseFailure e)) := by
  simp only [exec, execHdrdec, dec]

/-- Settles O35: the decoder's answer becomes the result, and FAULT is not looked at. -/
theorem headerDecodeAnswersInEveryState : Obligations.HeaderDecodeAnswersInEveryState :=
  fun _ _ => ⟨fun _ => exec_hdrdec_of_ok, fun _ => exec_hdrdec_of_error⟩

/-- Settles O37: past the length check the identification bytes alone decide between a record and InvalidFormat. -/
theorem wrongIdentificationIsInvalidFormat : Obligations.WrongIdentificationIsInvalidFormat := by
  refine ⟨rfl, fun magic input long => ⟨Iff.trans ⟨fun invalid tag => ?_, headerDecode_of_ne_magic long⟩ idTagOf_ne_iff,
    fun r dec => ?_⟩⟩
  · simp [headerDecode_of_magic long tag] at invalid
  · obtain ⟨tag, rfl⟩ := headerDecode_ok dec
    exact ⟨rfl, tag⟩

/-! ## The bytes a record depends on -/

theorem headerByte_take {i n : Nat} (h : i < n) (input : List Byte) :
    headerByte (input.take n) i = headerByte input i := by
  simp [headerByte, h]

theorem idTagOf_congr {a b : List Byte} (same : ∀ i < 4, headerByte a i = headerByte b i) : idTagOf a = idTagOf b := by
  simp [idTagOf, same]

/-- A record is made from the first eight bytes and, in the extended version only, from the next eight (R133). -/
theorem headerRecord_congr {a b : List Byte} (low : ∀ i < 8, headerByte a i = headerByte b i)
    (high : isExtended (headerByte b 7) = true → ∀ i < 16, headerByte a i = headerByte b i) :
    headerRecord a = headerRecord b := by
  have tag : idTagOf a = idTagOf b := idTagOf_congr fun i hi => low i (by omega)
  cases version : isExtended (headerByte b 7) with
  | true => simp [headerRecord, ifExtended, ifConsole, extNibble, tag, high version]
  | false => simp [headerRecord, ifExtended, ifConsole, extNibble, tag, low, version]

theorem headerDecode_take {magic : IdTag} {input : List Byte} (long : 16 ≤ input.length) :
    headerDecode magic (input.take 16) = headerDecode magic input := by
  have same : ∀ i < 16, headerByte (input.take 16) i = headerByte input i := fun i hi => headerByte_take hi input
  have tag : idTagOf (input.take 16) = idTagOf input := idTagOf_congr fun i hi => same i (by omega)
  have record : headerRecord (input.take 16) = headerRecord input :=
    headerRecord_congr (fun i hi => same i (by omega)) fun _ => same
  simp [headerDecode, tag, record, long]

/-- Settles O36: the length check comes first, and the two parts of the decoder that follow read the first 16 bytes. -/
theorem shortHeadersAreTruncatedAndLongOnesCut : Obligations.ShortHeadersAreTruncatedAndLongOnesCut := by
  refine fun magic input => ⟨headerDecode_of_short, fun long => ⟨?_, (headerDecode_take long).symm⟩⟩
  by_cases tag : idTagOf input = magic
  · simp [headerDecode_of_magic long tag]
  · simp [headerDecode_of_ne_magic long tag]

/-! ## Bits and nibbles of a byte -/

theorem extractLsb'_one_eq_ofBool {w : Nat} (x : BitVec w) (i : Nat) :
    x.extractLsb' i 1 = BitVec.ofBool (x.getLsbD i) := by
  refine BitVec.eq_of_getLsbD_eq fun j hj => ?_
  obtain rfl : j = 0 := by omega
  simp

theorem getLsbD_iff_slice_one {w : Nat} (x : BitVec w) (i : Nat) :
    x.getLsbD i = true ↔ x.extractLsb' i 1 = 1#1 := by
  rw [extractLsb'_one_eq_ofBool]
  cases x.getLsbD i <;> decide

theorem not_getLsbD_iff_slice_zero {w : Nat} (x : BitVec w) (i : Nat) :
    (!x.getLsbD i) = true ↔ x.extractLsb' i 1 = 0#1 := by
  rw [extractLsb'_one_eq_ofBool]
  cases x.getLsbD i <;> decide

theorem consoleOf_getLsbD_iff_slice_one {i : Nat} (h : i < 2) (b : Byte) :
    (consoleOf b).getLsbD i = true ↔ b.extractLsb' i 1 = 1#1 := by
  rw [← getLsbD_iff_slice_one]
  simp [consoleOf, h]

theorem highNibble_toNat (b : Byte) : (highNibble b).toNat = b.toNat / 16 := by
  have := b.isLt
  rw [highNibble, extract_toNat]
  omega

theorem lowNibble_toNat (b : Byte) : (lowNibble b).toNat = b.toNat % 16 := by
  rw [lowNibble, extract_toNat]
  omega

/-! ## The version of a record -/

theorem versionOf_eq_extended_iff {b : Byte} : versionOf b = .extended ↔ isExtended b = true := by
  cases version : isExtended b <;> simp [versionOf, version]

theorem versionOf_eq_legacy_iff {b : Byte} : versionOf b = .legacy ↔ isExtended b = false := by
  cases version : isExtended b <;> simp [versionOf, version]

/-- The version field as the mask of R118. -/
theorem isExtended_iff_mask {b : Byte} : isExtended b = true ↔ b &&& 0x0C#8 = 0x08#8 := by
  rw [mask0C_08, isExtended, beq_iff_eq]

/-- Settles O38: bit by bit, and the mode by the two bits it depends on. -/
theorem headerFlagsComeFromByteSix : Obligations.HeaderFlagsComeFromByteSix := by
  intro magic input r dec
  obtain ⟨-, rfl⟩ := headerDecode_ok dec
  refine ⟨getLsbD_iff_slice_one _ _, not_getLsbD_iff_slice_zero _ _, getLsbD_iff_slice_one _ _,
    getLsbD_iff_slice_one _ _, getLsbD_iff_slice_one _ _, fun four => if_pos four, fun four vertical => ?_,
    fun four vertical => ?_⟩
  all_goals
    dsimp only [headerRecord] at four vertical ⊢
    simp [mirroringMode, four, vertical]

/-- Settles O39: the version by its mask, the two flags as bits of the console field. -/
theorem headerVersionAndConsoleComeFromByteSeven : Obligations.HeaderVersionAndConsoleComeFromByteSeven := by
  intro magic input r dec
  obtain ⟨-, rfl⟩ := headerDecode_ok dec
  have version : (headerRecord input).version = .extended ↔ headerByte input 7 &&& 0x0C#8 = 0x08#8 :=
    versionOf_eq_extended_iff.trans isExtended_iff_mask
  refine ⟨version, ?_, versionOf_eq_extended_iff.symm, rfl, ?_, ?_⟩
  · exact versionOf_eq_legacy_iff.trans (Bool.not_eq_true _ ▸ not_congr isExtended_iff_mask)
  · exact consoleOf_getLsbD_iff_slice_one Nat.zero_lt_two _
  · exact consoleOf_getLsbD_iff_slice_one Nat.one_lt_two _

/-! ## The mapper number and the ROM sizes -/

theorem headerRecord_mapper_toNat (input : List Byte) :
    (headerRecord input).mapper.toNat = (extNibble input (lowNibble (headerByte input 8))).toNat * 256 +
      (headerByte input 7).toNat / 16 * 16 + (headerByte input 6).toNat / 16 := by
  rw [← highNibble_toNat, ← highNibble_toNat]
  exact joinMapper_toNat _ _ _

/-- Settles O40: the joined nibbles as a number, the highest of them 0 in the legacy version. -/
theorem headerMapperIsJoinedFromNibbles : Obligations.HeaderMapperIsJoinedFromNibbles := by
  intro magic input r dec
  obtain ⟨-, rfl⟩ := headerDecode_ok dec
  refine ⟨fun legacy => ?_, fun ext => ?_⟩ <;> rw [headerRecord_mapper_toNat]
  · have legacy := versionOf_eq_legacy_iff.mp legacy
    rw [extNibble_of_legacy legacy]
    exact ⟨by simp [headerByte], ifExtended_of_legacy legacy _⟩
  · have ext := versionOf_eq_extended_iff.mp ext
    rw [extNibble_of_extended ext, lowNibble_toNat]
    exact ⟨rfl, ifExtended_of_extended ext _⟩

/-- Settles O41: the low bytes are there in either version, the high nibbles by the version. -/
theorem romSizesAreShiftedTogether : Obligations.RomSizesAreShiftedTogether := by
  intro magic input r dec
  obtain ⟨-, rfl⟩ := headerDecode_ok dec
  refine ⟨rfl, rfl, fun ext => ?_, fun legacy => ?_, joinSize_toNat _ _, joinSize_toNat _ _⟩
  · have nibble := extNibble_of_extended (versionOf_eq_extended_iff.mp ext)
    exact ⟨nibble _, nibble _⟩
  · have nibble := extNibble_of_legacy (versionOf_eq_legacy_iff.mp legacy)
    exact ⟨nibble _, nibble _⟩

/-! ## The RAM sizes -/

/-- The largest size, 64 shifted by 15, still fits the 22 bits (R126). -/
theorem ramSize_toNat (shift : BitVec 4) :
    (ramSize shift).toNat = if shift = 0#4 then 0 else 64 * 2 ^ shift.toNat := by
  have bound : 2 ^ shift.toNat ≤ 2 ^ 15 := Nat.pow_le_pow_right (by decide) (Nat.le_of_lt_succ shift.isLt)
  unfold ramSize
  split
  · rfl
  · rw [BitVec.toNat_shiftLeft, Nat.shiftLeft_eq]
    exact Nat.mod_eq_of_lt (show 64 * 2 ^ shift.toNat < 2 ^ 22 by omega)

theorem ramSize_eq_zero_or_two_pow (shift : BitVec 4) :
    ramSize shift = 0#22 ∨ ∃ k, 7 ≤ k ∧ k ≤ 21 ∧ (ramSize shift).toNat = 2 ^ k := by
  by_cases zero : shift = 0#4
  · exact .inl (if_pos zero)
  · have pos : shift.toNat ≠ 0 := fun h => zero (BitVec.eq_of_toNat_eq h)
    have lt := shift.isLt
    refine .inr ⟨6 + shift.toNat, by omega, by omega, ?_⟩
    rw [ramSize_toNat, if_neg zero, Nat.pow_add]

/-- Settles O42: the counts are nibbles of bytes 10 and 11, and each size is made from its count by one rule. -/
theorem ramSizesComeFromShiftCounts : Obligations.RamSizesComeFromShiftCounts := by
  intro magic input r dec
  obtain ⟨-, rfl⟩ := headerDecode_ok dec
  refine ⟨fun legacy => ?_, fun ext => ⟨_, _, _, _, rfl, rfl, rfl, rfl, ?_⟩⟩
  · have field {α : Type} (v : α) := ifExtended_of_legacy (versionOf_eq_legacy_iff.mp legacy) v
    exact ⟨field _, field _, field _, field _, field _, field _, field _, field _⟩
  · have field {α : Type} (v : α) := ifExtended_of_extended (versionOf_eq_extended_iff.mp ext) v
    have size (shift : BitVec 4) : (ifExtended input (ramSize shift)).map BitVec.toNat =
        some (if shift = 0#4 then 0 else 64 * 2 ^ shift.toNat) := by
      rw [field, Option.map_some, ramSize_toNat]
    exact ⟨field _, field _, field _, field _, size _, size _, size _, size _⟩

/-! ## The fields of bytes 12 to 15 -/

theorem ifConsole_of_selected {α : Type} {input : List Byte} {console : BitVec 2}
    (ext : versionOf (headerByte input 7) = .extended) (selected : consoleOf (headerByte input 7) = console) (v : α) :
    ifConsole input console v = some v :=
  if_pos ⟨versionOf_eq_extended_iff.mp ext, selected⟩

theorem ifConsole_of_not_selected {α : Type} {input : List Byte} {console : BitVec 2}
    (other : ¬ (versionOf (headerByte input 7) = .extended ∧ consoleOf (headerByte input 7) = console)) (v : α) :
    ifConsole input console v = none :=
  if_neg fun ⟨ext, selected⟩ => other ⟨versionOf_eq_extended_iff.mpr ext, selected⟩

/-- Settles O43: the direct fields by the version, the sub-types by the version and the console type. -/
theorem extendedFieldsAreDirectSlices : Obligations.ExtendedFieldsAreDirectSlices := by
  intro magic input r dec
  obtain ⟨-, rfl⟩ := headerDecode_ok dec
  refine ⟨fun ext => ?_, fun legacy => ?_, fun ext vs => ?_, fun other => ?_, fun ext console => ?_, fun other => ?_⟩
  · have field {α : Type} (v : α) := ifExtended_of_extended (versionOf_eq_extended_iff.mp ext) v
    exact ⟨field _, field _, field _⟩
  · have field {α : Type} (v : α) := ifExtended_of_legacy (versionOf_eq_legacy_iff.mp legacy) v
    exact ⟨field _, field _, field _⟩
  · exact ⟨ifConsole_of_selected ext vs _, ifConsole_of_selected ext vs _⟩
  · exact ⟨ifConsole_of_not_selected other _, ifConsole_of_not_selected other _⟩
  · exact ifConsole_of_selected ext console _
  · exact ifConsole_of_not_selected other _

/-! ## Legacy records and the invariants of every record -/

theorem headerRecord_mapper_lt_of_legacy {input : List Byte} (legacy : isExtended (headerByte input 7) = false) :
    (headerRecord input).mapper.toNat < 256 := by
  have h6 := (headerByte input 6).isLt
  have h7 := (headerByte input 7).isLt
  rw [headerRecord_mapper_toNat, extNibble_of_legacy legacy, BitVec.toNat_ofNat]
  omega

/-- Settles O44: every extended field is absent, and the record depends on the first eight bytes only. -/
theorem legacyRecordsIgnoreBytesEightToFifteen : Obligations.LegacyRecordsIgnoreBytesEightToFifteen := by
  intro magic input r dec version
  obtain ⟨tag, rfl⟩ := headerDecode_ok dec
  have legacy := versionOf_eq_legacy_iff.mp version
  have nibble := extNibble_of_legacy legacy
  have field {α : Type} (v : α) := ifExtended_of_legacy legacy v
  have subType {α : Type} (console : BitVec 2) (v : α) := ifConsole_of_legacy legacy console v
  refine ⟨legacy, headerRecord_mapper_lt_of_legacy legacy, nibble _, nibble _, field _, field _, field _, field _,
    field _, field _, field _, field _, field _, field _, subType _ _, subType _ _, subType _ _, field _, field _,
    fun other long same => ?_⟩
  have low : ∀ i < 8, headerByte other i = headerByte input i := fun i hi => by
    rw [← headerByte_take hi, same, headerByte_take hi]
  have record : headerRecord other = headerRecord input := headerRecord_congr low (by simp [legacy])
  rw [headerDecode_of_magic long ((idTagOf_congr fun i hi => low i (by omega)).trans tag), record]

theorem isSome_ifConsole {α : Type} {input : List Byte} {console : BitVec 2} {v : α} :
    (ifConsole input console v).isSome ↔
      versionOf (headerByte input 7) = .extended ∧ consoleOf (headerByte input 7) = console := by
  simp [versionOf_eq_extended_iff, ifConsole]

theorem eq_of_mem_ifExtended {α : Type} {input : List Byte} {v n : α} (h : n ∈ ifExtended input v) : n = v := by
  obtain ⟨-, same⟩ : isExtended (headerByte input 7) = true ∧ v = n := by simpa [ifExtended] using h
  exact same.symm

theorem joinSize_lt_of_msb_zero {msb : BitVec 4} (zero : msb = 0#4) (lsb : Byte) : (joinSize msb lsb).toNat < 256 := by
  have := lsb.isLt
  rw [joinSize_toNat, zero, BitVec.toNat_ofNat]
  omega

theorem headerRecord_valid (input : List Byte) : (headerRecord input).Valid (idTagOf input) where
  tag := rfl
  mirroring := rfl
  ext := versionOf_eq_extended_iff.symm
  legacyMapper version := headerRecord_mapper_lt_of_legacy (versionOf_eq_legacy_iff.mp version)
  legacySizes version :=
    have nibble := extNibble_of_legacy (versionOf_eq_legacy_iff.mp version)
    ⟨joinSize_lt_of_msb_zero (nibble _) _, joinSize_lt_of_msb_zero (nibble _) _⟩
  vsTypes := ⟨isSome_ifConsole, isSome_ifConsole⟩
  extConsole := isSome_ifConsole
  ramSizes := by
    have size (shift : BitVec 4) : ∀ n ∈ ifExtended input (ramSize shift),
        n = 0#22 ∨ ∃ k, 7 ≤ k ∧ k ≤ 21 ∧ n.toNat = 2 ^ k := fun n hn =>
      eq_of_mem_ifExtended hn ▸ ramSize_eq_zero_or_two_pow shift
    simp only [List.forall_mem_cons, List.not_mem_nil, false_imp_iff, implies_true, and_true]
    exact ⟨size _, size _, size _, size _⟩

/-- Settles O45: the invariants hold of the record made from any bytes, with the tag those bytes have. -/
theorem everyRecordIsValid : Obligations.EveryRecordIsValid := by
  intro magic input r dec
  obtain ⟨tag, rfl⟩ := headerDecode_ok dec
  exact tag ▸ headerRecord_valid input

end Sys2Proof.Machine
end

section
/-! The statements of `41_bus_access.md`: where an address leads, what the four access operations and the window rows
answer, and that the trace output changes neither. -/

namespace Sys2Proof.Machine

/-! ## The router -/

/-- While FAULT is clear each of the four access operations completes, and FAULT stays clear (R159). -/
theorem exec_busOperation_live {s : State} (live : s.fault = none) (a : Addr) (v : Byte) (w : Word) :
    ∀ i ∈ [Instr.rdb a, .wrb a v, .rdw a, .wrw a w], ∃ t, exec i s = .next t ∧ t.fault = none := by
  simp only [List.forall_mem_cons, List.not_mem_nil, false_imp_iff, implies_true, and_true]
  refine ⟨⟨_, exec_access_live (isAccess_rdb a) live, ?_⟩, ⟨_, exec_access_live (isAccess_wrb a v) live, ?_⟩,
    ⟨_, exec_rdw_live live, ?_⟩, ⟨_, exec_wrw_live live, ?_⟩⟩ <;> simp [live]

/-- Settles O8: every place the router finds is in range, so no primitive raises a fault. -/
theorem routedOffsetsAreInsideTheirStores : Obligations.RoutedOffsetsAreInsideTheirStores := by
  refine ⟨fun usel a => ?_, fun s a v w live => exec_busOperation_live live a v w⟩
  have inRange := route_inRange usel a
  cases place : route usel a with
  | cell S o =>
    rw [place] at inRange
    cases S <;> exact inRange
  | ppu p =>
    rw [place] at inRange
    exact inRange

/-- A slice of an address equals `c` just when the number of the slice is `c`'s. -/
theorem extract_eq_iff (a : Addr) (start len : Nat) (c : BitVec len) :
    a.extractLsb' start len = c ↔ a.toNat / 2 ^ start % 2 ^ len = c.toNat := by
  rw [← BitVec.toNat_inj, extract_toNat]

/-- The address whose high 13 bits are the proxy's and whose low three bits are those of `a`. -/
theorem proxyBits_eq_ofNat (a : Addr) :
    0b0010000000000#13 ++ a.extractLsb' 0 3 = BitVec.ofNat 16 (0x2000 + a.toNat % 8) := by
  apply BitVec.eq_of_toNat_eq
  rw [toNat_append_add, extract_toNat, BitVec.toNat_ofNat, BitVec.toNat_ofNat]
  omega

/-- Settles O9: each bit pattern is a range of addresses, and in its range the offset is the low bits' number. -/
theorem routeInBitForm : Obligations.RouteInBitForm := by
  intro usel a
  have := a.isLt
  simp only [ne_eq, extract_eq_iff, maskFFE0, extract_toNat, BitVec.toNat_ofNat]
  refine ⟨fun ram => ?_, fun ppu => ?_, fun iow => ⟨by omega, ?_⟩, fun low apart => ⟨by omega, ?_⟩, fun prgl => ?_,
    fun prgu => ?_⟩
  · rw [route_ram (by omega)]
    exact congrArg _ (by omega)
  · rw [route_ppu (by omega) (by omega), proxyBits_eq_ofNat]
    exact congrArg (Target.ppu ∘ BitVec.ofNat 16) (by omega)
  · rw [route_iow (by omega) (by omega)]
    exact congrArg _ (by omega)
  · exact route_exp (by omega) (by omega)
  · rw [route_prgl (by omega) (by omega)]
    exact congrArg _ (by omega)
  · rw [route_prgu (by omega)]
    exact congrArg (Target.cell (upperBank usel)) (by omega)

/-- Settles O10: the router at the fourteen addresses of the table. -/
theorem straddlingWordsSplitWhereTheTableSays : Obligations.StraddlingWordsSplitWhereTheTableSays := by
  intro usel
  cases usel <;> decide

/-! ## The four access operations -/

/-- Settles O11: RDB is the byte access that reads. -/
theorem readByteAnswersTheRoutedPlace : Obligations.ReadByteAnswersTheRoutedPlace :=
  fun _ a live => exec_access_live (isAccess_rdb a) live

/-- Settles O12: WRB is the byte access that writes. -/
theorem writeByteReachesTheRoutedPlace : Obligations.WriteByteReachesTheRoutedPlace :=
  fun _ a v live => exec_access_live (isAccess_wrb a v) live

theorem accessed_read {T : Target} (h : T.inRange) (a : Addr) (s : State) :
    s.accessed T a .read = (afterRead T a s).answer (.byte (valueAt T s)) := by
  simpa [accessAt, readAt_done h, eq_comm] using accessAt_accessed h a .read s

theorem accessed_write {T : Target} (h : T.inRange) (a : Addr) (v : Byte) (s : State) :
    s.accessed T a (.write v) = (afterWrite T a v s).answer .ok := by
  simpa [accessAt, writeAt_done h, eq_comm] using accessAt_accessed h a (.write v) s

/-- RDB in the words of the shared operations, which RDW is made of too. -/
theorem exec_rdb_live {a : Addr} {s : State} (live : s.fault = none) :
    exec (.rdb a) s = .next ((afterRead (route s.usel a) a s).answer (.byte (valueAt (route s.usel a) s))) := by
  rw [exec_access_live (isAccess_rdb a) live, accessed_read (route_inRange _ _)]

/-- WRB in the words of the shared operations, which WRW is made of too. -/
theorem exec_wrb_live {a : Addr} {v : Byte} {s : State} (live : s.fault = none) :
    exec (.wrb a v) s = .next ((afterWrite (route s.usel a) a v s).answer .ok) := by
  rw [exec_access_live (isAccess_wrb a v) live, accessed_write (route_inRange _ _)]

/-! A result given leaves the next access as it was: this is what joins two byte operations into a word. -/

@[simp] theorem emit_answer (k : AccessKind) (a : Addr) (r : Region) (v : Byte) (s : State) (x : Result) :
    emit k a r v (s.answer x) = (emit k a r v s).answer x := by
  by_cases present : s.cfg.trace = true <;> simp [emit, State.answer, present]

@[simp] theorem valueAt_answer (T : Target) (s : State) (x : Result) : valueAt T (s.answer x) = valueAt T s := by
  cases T with
  | cell S o => exact answer_cell s x S o
  | ppu p => rfl

@[simp] theorem afterRead_answer (T : Target) (a : Addr) (s : State) (x : Result) :
    afterRead T a (s.answer x) = (afterRead T a s).answer x := by
  cases T with
  | cell S o => simp only [afterRead, answer_cell, emit_answer]
  | ppu p => exact emit_answer _ _ _ _ { s with proxyLog := s.proxyLog ++ [.rd p], draws := s.draws + 1 } x

@[simp] theorem setCell_answer (S : Store) (o : Nat) (v : Byte) (s : State) (x : Result) :
    (s.answer x).setCell S o v = (s.setCell S o v).answer x := by
  cases S <;> rfl

@[simp] theorem afterWrite_answer (T : Target) (a : Addr) (v : Byte) (s : State) (x : Result) :
    afterWrite T a v (s.answer x) = (afterWrite T a v s).answer x := by
  cases T with
  | cell S o => simp only [afterWrite, setCell_answer, emit_answer]
  | ppu p => exact emit_answer _ _ _ _ { s with proxyLog := s.proxyLog ++ [.wr p v] } x

/-- Two results taken back and one given in their place. -/
theorem answer_eq_with_results {u : State} {given : List Result} (h : u.results = given) (x y z : Result) :
    u.answer z = { (u.answer x).answer y with results := given ++ [z] } := by
  subst h
  rfl

/-- RDB after a result was given. -/
theorem exec_rdb_answer {a : Addr} {s : State} (live : s.fault = none) (x : Result) :
    exec (.rdb a) (s.answer x) = .next
      (((afterRead (route s.usel a) a s).answer x).answer (.byte (valueAt (route s.usel a) s))) := by
  rw [exec_rdb_live (s := s.answer x) live, answer_usel, afterRead_answer, valueAt_answer]

/-- WRB after a result was given. -/
theorem exec_wrb_answer {a : Addr} {v : Byte} {s : State} (live : s.fault = none) (x : Result) :
    exec (.wrb a v) (s.answer x) = .next (((afterWrite (route s.usel a) a v s).answer x).answer .ok) := by
  rw [exec_wrb_live (s := s.answer x) live, answer_usel, afterWrite_answer]

/-- Settles O13: the first result does not change the second read, and the two bytes side by side are the word. -/
theorem readWordIsTwoByteReads : Obligations.ReadWordIsTwoByteReads := by
  intro s a live
  have second := exec_rdb_answer (a := nextAddr a) (s := afterRead (route s.usel a) a s) (by simpa using live)
    (.byte (valueAt (route s.usel a) s))
  rw [afterRead_usel] at second
  refine ⟨_, _, _, _, exec_rdb_live live, by rw [answer_results, afterRead_results], second,
    by rw [answer_results, answer_results, afterRead_results, answer_results], ?_⟩
  rw [exec_rdw_live live, joinWord_append]
  exact congrArg Host.Outcome.next (answer_eq_with_results (by simp) _ _ _)

/-- Settles O14: the first result does not change the second write. -/
theorem writeWordIsTwoByteWrites : Obligations.WriteWordIsTwoByteWrites := by
  intro s a w live
  have second := exec_wrb_answer (a := nextAddr a) (v := hiByte w) (s := afterWrite (route s.usel a) a (loByte w) s)
    (by simpa using live) .ok
  rw [afterWrite_usel] at second
  refine ⟨_, _, exec_wrb_live live, second, ?_⟩
  rw [exec_wrw_live live]
  exact congrArg Host.Outcome.next (answer_eq_with_results (by simp) _ _ _)

/-! ## Words in the proxy window -/

@[simp] theorem afterRead_ppu_proxyLog (p a : Addr) (s : State) :
    (afterRead (.ppu p) a s).proxyLog = s.proxyLog ++ [.rd p] := by
  simp [afterRead]

@[simp] theorem afterWrite_ppu_proxyLog (p a : Addr) (v : Byte) (s : State) :
    (afterWrite (.ppu p) a v s).proxyLog = s.proxyLog ++ [.wr p v] := by
  simp [afterWrite]

/-- A write behind the proxy changes no cell (R207). -/
@[simp] theorem afterWrite_ppu_cell (p a : Addr) (v : Byte) (s : State) (S : Store) (o : Nat) :
    (afterWrite (.ppu p) a v s).cell S o = s.cell S o :=
  afterWrite_cell_of_ne nofun

/-- Every address of the proxy window leads to the register that its low three bits number (R154). -/
theorem exists_route_ppu (usel : BankSelect) {a : Addr} (h : 0x2000 ≤ a.toNat) (h' : a.toNat < 0x4000) :
    ∃ p : Addr, route usel a = .ppu p ∧ p.toNat = 0x2000 + a.toNat % 8 := by
  obtain ⟨p, routed, number, -, -⟩ := proxyAddressIsReducedModuloEight usel a h h'
  exact ⟨p, routed, by omega⟩

/-- Settles O17: both bytes lie behind the proxy, the second at the next address. -/
theorem proxyWordsAreTwoEventsInOrder : Obligations.ProxyWordsAreTwoEventsInOrder := by
  intro s a w live h h'
  have next : (nextAddr a).toNat = a.toNat + 1 := by
    simp only [nextAddr, BitVec.toNat_add, BitVec.toNat_ofNat]
    omega
  obtain ⟨p, low, hp⟩ := exists_route_ppu s.usel h (by omega)
  obtain ⟨q, high, hq⟩ := exists_route_ppu (a := nextAddr a) s.usel (by omega) (by omega)
  refine ⟨p, q, hp, next ▸ hq, ⟨_, exec_wrw_live live, ?_, fun S o => ?_⟩, ⟨_, exec_rdw_live live, ?_, fun S o => ?_⟩⟩
  · simp [low, high, loByte, hiByte]
  · simp [low, high]
  · simp [low, high]
  · simp

/-! ## Mirrors and program windows -/

/-- A byte written at a store address is read at every address that leads to the same cell. -/
theorem exec_wrb_then_rdb {s : State} {a a' : Addr} {S : Store} {o : Nat} (v : Byte) (live : s.fault = none)
    (routed : route s.usel a = .cell S o) (routed' : route s.usel a' = .cell S o) :
    ∃ t u, exec (.wrb a v) s = .next t ∧ t.cell S o = v ∧
      exec (.rdb a') t = .next u ∧ u.results = t.results ++ [.byte v] := by
  obtain ⟨t, run, live', husel, -, held, -⟩ := exec_wrb_cell v live routed
  obtain ⟨u, run', hu⟩ := exec_rdb_cell live' (husel ▸ routed') held
  exact ⟨t, u, run, held, run', hu⟩

/-- Settles O18: below 0x2000 the router reads bits 10 to 0 only. -/
theorem ramMirrorsAreOneCell : Obligations.RamMirrorsAreOneCell := by
  intro s a a' v live h h' mirror
  simp only [extract_eq_iff, extract_toNat] at mirror
  have cell : route s.usel a = .cell .ram (a.toNat % 0x0800) := route_ram h
  have cell' : route s.usel a' = .cell .ram (a.toNat % 0x0800) := by
    rw [route_ram h']
    exact congrArg _ (by omega)
  refine ⟨?_, exec_wrb_then_rdb v live cell cell'⟩
  rw [cell, extract_toNat]
  exact congrArg _ (by omega)

theorem route_lowerWindow (usel : BankSelect) {k : Nat} (h : k < 0x4000) :
    route usel (BitVec.ofNat 16 (0x8000 + k)) = .cell .prgl k := by
  have number : (BitVec.ofNat 16 (0x8000 + k)).toNat = 0x8000 + k := Nat.mod_eq_of_lt (by omega)
  rw [route_prgl (by omega) (by omega), number, Nat.add_sub_cancel_left]

theorem route_upperWindow (usel : BankSelect) {k : Nat} (h : k < 0x4000) :
    route usel (BitVec.ofNat 16 (0xC000 + k)) = .cell (upperBank usel) k := by
  have number : (BitVec.ofNat 16 (0xC000 + k)).toNat = 0xC000 + k := Nat.mod_eq_of_lt (by omega)
  rw [route_prgu (by omega), number, Nat.add_sub_cancel_left]

/-- Settles O19: the two windows lead to one cell in the aliased state, to cells of two stores in the own state. -/
theorem upperWindowFollowsTheBankSelect : Obligations.UpperWindowFollowsTheBankSelect := by
  intro s k v live h
  have lower := route_lowerWindow s.usel h
  have upper := route_upperWindow s.usel h
  refine ⟨lower, fun aliased => ?_, fun own => ?_⟩
  · rw [show upperBank s.usel = .prgl by rw [aliased]; rfl] at upper
    obtain ⟨t, u, run, -, run', hu⟩ := exec_wrb_then_rdb v live upper lower
    obtain ⟨t', u', run1, -, run1', hu'⟩ := exec_wrb_then_rdb v live lower upper
    exact ⟨upper, ⟨t, u, run, run', hu⟩, ⟨t', u', run1, run1', hu'⟩⟩
  · rw [show upperBank s.usel = .prgu by rw [own]; rfl] at upper
    obtain ⟨t, run, -, -, -, -, others⟩ := exec_wrb_cell v live lower
    obtain ⟨t', run', -, -, -, -, others'⟩ := exec_wrb_cell v live upper
    exact ⟨upper, ⟨t, run, others .prgu k nofun⟩, ⟨t', run', others' .prgl k nofun⟩⟩

/-- Settles O20: a program window's cell is written as any other. -/
theorem programWindowWritesReachTheStore : Obligations.ProgramWindowWritesReachTheStore := by
  intro s a v live h
  obtain ⟨S, o, routed⟩ : ∃ S o, route s.usel a = .cell S o := by
    rcases Nat.lt_or_ge a.toNat 0xC000 with h' | h'
    · exact ⟨_, _, route_prgl h h'⟩
    · exact ⟨_, _, route_prgu h'⟩
  obtain ⟨t, run, live', husel, hlog, held, -⟩ := exec_wrb_cell v live routed
  exact ⟨S, o, t, routed, run, live', hlog, husel, held, fun _ routed' => exec_rdb_cell live' routed' held⟩

/-! ## The window rows -/

/-- While FAULT is clear a row's byte access completes at a place in range. -/
theorem windowAccess_live {T : Target} {s : State} (live : s.fault = none) (h : T.inRange) (a : Addr) (acc : Access) :
    windowAccess T a acc s = .next (s.accessed T a acc) := by
  rw [windowAccess, whenLive_live live, accessAt_accessed h]

/-- While FAULT is clear a row of the expansion window accesses `EXP[a - 0x4020]` (R156), `first` being the offset of the
row's first address. -/
theorem expRow_live {m n : Nat} (high : BitVec m) (low : BitVec n) {first : Nat} {s : State} {a : Addr} (acc : Access)
    (live : s.fault = none) (number : a.toNat = (high ++ low).toNat) (fixed : high.toNat * 2 ^ n = 0x4020 + first)
    (last : first + 2 ^ n ≤ 0x3FE0) :
    expAccess a acc s = .next (s.accessed (.cell .exp (first + low.toNat)) a acc) := by
  have := low.isLt
  rw [toNat_append_add, fixed] at number
  have offset : a.toNat - 0x4020 = first + low.toNat := by omega
  have inRange : (Target.cell .exp (first + low.toNat)).inRange := Nat.lt_of_lt_of_le (by omega) last
  rw [expAccess, offset]
  exact windowAccess_live live inRange a acc

/-- Settles O24: a row's fields give an offset in range, or a proxy register. -/
theorem windowRowsAccessTheirPlaces : Obligations.WindowRowsAccessTheirPlaces := by
  intro s acc live
  have proxy (r : BitVec 3) : proxyAddr r = 0b0010000000000#13 ++ r := by
    apply BitVec.eq_of_toNat_eq
    rw [proxyAddr_toNat, toNat_append_add]
    rfl
  have proxyRange (r : BitVec 3) : (Target.ppu (proxyAddr r)).inRange := by
    simp only [Target.inRange, proxyAddr_toNat]
    omega
  have upperRange (o : BitVec 14) : (Target.cell (upperBank s.usel) o.toNat).inRange := by
    simp only [Target.inRange, cap_upperBank]
    omega
  refine ⟨fun m o => ?ram, fun m r => ?ppu, fun o => ?iow, fun o => ?e1, fun o => ?e2, fun o => ?e3, fun o => ?e4,
    fun o => ?e5, fun o => ?e6, fun o => ?e7, fun o => ?e8, fun o => ?e9, fun o => ?prgl, fun o => ?prgu⟩
  case ram => exact windowAccess_live (T := .cell .ram o.toNat) live o.isLt _ acc
  case ppu => exact proxy r ▸ windowAccess_live live (proxyRange r) _ acc
  case iow => exact windowAccess_live (T := .cell .iow o.toNat) live o.isLt _ acc
  case prgl => exact windowAccess_live (T := .cell .prgl o.toNat) live o.isLt _ acc
  case prgu => exact windowAccess_live live (upperRange o) _ acc
  case e1 => exact Nat.zero_add o.toNat ▸ expRow_live 0b01000000001#11 o acc live rfl rfl (by decide)
  all_goals exact expRow_live _ o acc live rfl rfl (by decide)

/-! ## The trace output -/

/-- The same ending without the trace output. -/
def Effect.untraced {α : Type} : Effect α → Effect α
  | .done value s => .done value s.untraced
  | .raised f s => .raised f s.untraced

/-- An operation that does the same without the trace output. -/
def TraceFree {α : Type} (e : State → Effect α) : Prop :=
  ∀ s : State, e s.untraced = (e s).untraced

theorem traceFree_done {α : Type} (value : α) : TraceFree (.done value) :=
  fun _ => rfl

/-- What goes on after an operation meets the same state and value either way. -/
theorem traceFree_andThen {α β : Type} {e : State → Effect α} {k : α → State → Effect β} (he : TraceFree e)
    (hk : ∀ value, TraceFree (k value)) : TraceFree fun s => andThen (e s) k := by
  intro s
  simp only [he s]
  cases e s with
  | done value t => exact hk value t
  | raised f t => rfl

@[simp] theorem untraced_store (s : State) (S : Store) : s.untraced.store S = s.store S := by
  cases S <;> rfl

@[simp] theorem untraced_cell (s : State) (S : Store) (o : Nat) : s.untraced.cell S o = s.cell S o := by
  simp only [State.cell, untraced_store]
  rfl

theorem setStore_untraced (s : State) (S : Store) (m : Memory) :
    s.untraced.setStore S m = (s.setStore S m).untraced := by
  cases S <;> rfl

/-! ### The primitives: none of them reads the trace or TRACE -/

theorem traceFree_stRead (S : Store) (o : Nat) : TraceFree (stRead S o) := by
  intro s
  unfold stRead
  rw [untraced_cell]
  split <;> rfl

theorem traceFree_stWrite (S : Store) (o : Nat) (v : Byte) : TraceFree (stWrite S o v) := by
  intro s
  unfold stWrite State.setCell
  rw [untraced_store, setStore_untraced]
  split <;> rfl

theorem traceFree_stBulk (S : Store) (o : Nat) (bytes : List Byte) : TraceFree (stBulk S o bytes) := by
  intro s
  unfold stBulk
  rw [untraced_store, setStore_untraced]
  split <;> rfl

theorem traceFree_pxRead (p : Addr) : TraceFree (pxRead p) := by
  intro s
  unfold pxRead
  split <;> rfl

theorem traceFree_pxWrite (p : Addr) (v : Byte) : TraceFree (pxWrite p v) := by
  intro s
  unfold pxWrite
  split <;> rfl

/-- A trace event is emitted only when the output is present, and is all that changes. -/
theorem traceFree_emit {α : Type} (value : α) (kind : AccessKind) (a : Addr) (region : Region) (v : Byte) :
    TraceFree fun s => .done value (emit kind a region v s) := by
  intro s
  have silent : emit kind a region v s.untraced = s.untraced := rfl
  have dropped : (emit kind a region v s).untraced = s.untraced := by
    unfold emit
    split <;> rfl
  simp only [silent, Effect.untraced, dropped]

/-! ### The operations made of them -/

theorem traceFree_readAt (T : Target) (a : Addr) : TraceFree (readAt T a) :=
  match T with
  | .cell S o => traceFree_andThen (traceFree_stRead S o) fun v => traceFree_emit v .read a (.store S) v
  | .ppu p => traceFree_andThen (traceFree_pxRead p) fun v => traceFree_emit v .read a .ppu v

theorem traceFree_writeAt (T : Target) (a : Addr) (v : Byte) : TraceFree (writeAt T a v) :=
  match T with
  | .cell S o => traceFree_andThen (traceFree_stWrite S o v) fun _ => traceFree_emit () .write a (.store S) v
  | .ppu p => traceFree_andThen (traceFree_pxWrite p v) fun _ => traceFree_emit () .write a .ppu v

theorem traceFree_accessAt (T : Target) (a : Addr) (acc : Access) : TraceFree (accessAt T a acc) :=
  match acc with
  | .read => traceFree_andThen (traceFree_readAt T a) fun v => traceFree_done (Result.byte v)
  | .write v => traceFree_andThen (traceFree_writeAt T a v) fun _ => traceFree_done Result.ok

theorem traceFree_readByte (a : Addr) : TraceFree (readByte a) :=
  fun s => traceFree_readAt (route s.usel a) a s

theorem traceFree_writeByte (a : Addr) (v : Byte) : TraceFree (writeByte a v) :=
  fun s => traceFree_writeAt (route s.usel a) a v s

theorem traceFree_readWord (a : Addr) : TraceFree (readWord a) :=
  traceFree_andThen (traceFree_readByte a) fun lo =>
    traceFree_andThen (traceFree_readByte (nextAddr a)) fun hi => traceFree_done (joinWord hi lo)

theorem traceFree_writeWord (a : Addr) (w : Word) : TraceFree (writeWord a w) :=
  traceFree_andThen (traceFree_writeByte a (loByte w)) fun _ => traceFree_writeByte (nextAddr a) (hiByte w)

theorem traceFree_installProgram (bytes : List Byte) : TraceFree (installProgram bytes) := by
  intro s
  unfold installProgram
  split
  · rfl
  split
  · exact traceFree_andThen (traceFree_stBulk .prgl 0 (bytes.take 0x4000)) (fun _ =>
      traceFree_andThen (traceFree_stBulk .prgu 0 ((bytes.take 0x8000).drop 0x4000)) fun _ _ => rfl) s
  · exact traceFree_andThen (traceFree_stBulk .prgl 0 bytes) (fun _ _ => rfl) s

/-! ### The instructions -/

/-- An instruction's meaning that is the same without the trace output, the trace left out. -/
def TracePure (k : State → Host.Outcome State Fault Refusal) : Prop :=
  ∀ s : State, k s.untraced = mapNext State.untraced (k s)

theorem tracePure_answer (r : Result) : TracePure fun s => .next (s.answer r) :=
  fun _ => rfl

theorem tracePure_whenLive_finish {e : State → Effect Result} (h : TraceFree e) :
    TracePure fun s => whenLive s (finish (e s)) := by
  intro s
  have ending : finish (e s.untraced) = mapNext State.untraced (finish (e s)) := by
    rw [h s]
    cases e s <;> rfl
  cases latch : s.fault with
  | none => simpa only [whenLive_live (s := s.untraced) latch, whenLive_live latch] using ending
  | some f => simp only [whenLive_latched (s := s.untraced) latch, whenLive_latched latch, mapNext]

theorem tracePure_access {i : Instr} {a : Addr} {acc : Access} (h : IsAccess i a acc) : TracePure (exec i) := by
  rw [funext (exec_access h)]
  exact tracePure_whenLive_finish fun s => traceFree_accessAt (route s.usel a) a acc s

theorem tracePure_hdrdec (input : List Byte) : TracePure (exec (.hdrdec input)) := by
  intro s
  have magic : s.untraced.cfg.magic = s.cfg.magic := rfl
  simp only [exec, execHdrdec, magic]
  cases headerDecode s.cfg.magic input <;> rfl

theorem tracePure_idByte (b expected : Byte) : TracePure (giveIdByte b expected) := by
  intro s
  unfold giveIdByte
  split <;> rfl

/-- Every instruction is the same without the trace output. -/
theorem exec_tracePure (i : Instr) : TracePure (exec i) := by
  cases i
  case rdb a => exact tracePure_access (isAccess_rdb a)
  case wrb a v => exact tracePure_access (isAccess_wrb a v)
  case rdw a =>
    exact tracePure_whenLive_finish (traceFree_andThen (traceFree_readWord a) fun w => traceFree_done (Result.word w))
  case wrw a w =>
    exact tracePure_whenLive_finish (traceFree_andThen (traceFree_writeWord a w) fun _ => traceFree_done Result.ok)
  case install bytes =>
    exact tracePure_whenLive_finish (traceFree_andThen (traceFree_installProgram bytes) fun _ => traceFree_done Result.ok)
  case hdrdec input => exact tracePure_hdrdec input
  case pxRd p =>
    exact tracePure_whenLive_finish (traceFree_andThen (traceFree_pxRead p) fun v => traceFree_done (Result.byte v))
  case pxWr p v =>
    exact tracePure_whenLive_finish (traceFree_andThen (traceFree_pxWrite p v) fun _ => traceFree_done Result.ok)
  case hdrB0 b => exact fun s => tracePure_idByte b s.cfg.magic.b0 s
  case hdrB1 b => exact fun s => tracePure_idByte b s.cfg.magic.b1 s
  case hdrB2 b => exact fun s => tracePure_idByte b s.cfg.magic.b2 s
  case hdrB3 b => exact fun s => tracePure_idByte b s.cfg.magic.b3 s
  case winRam | winPpu | winIow | winExp1 | winExp2 | winExp3 | winExp4 | winExp5 | winExp6 | winExp7 | winExp8 |
      winExp9 | winPrgl | winPrgu => exact tracePure_access (.inl rfl)
  all_goals exact tracePure_answer _

/-- Settles O58: no operation reads TRACE but to emit an event, and none reads the trace. -/
theorem traceOutputIsPure : Obligations.TraceOutputIsPure :=
  exec_tracePure

end Sys2Proof.Machine
end

section
/-! The statements of `42_program_install.md`: INSTALL as one of three ends (nothing, up to 16 KB, more), what it puts
in the two program banks, and what it leaves unchanged. -/

namespace Sys2Proof.Machine

/-! ## How INSTALL ends -/

/-- While FAULT is clear INSTALL of 1 to 16 KB completes (`42_program_install.md` R183). -/
theorem exec_install_small {bytes : List Byte} {s : State} (live : s.fault = none) (pos : bytes.length ≠ 0)
    (small : bytes.length ≤ 0x4000) : exec (.install bytes) s = .next ((afterInstallSmall bytes s).answer .ok) := by
  simp only [exec, execInstall, whenLive_live live, installProgram_small pos small, andThen_done, finish_done]

/-- While FAULT is clear INSTALL of more than 16 KB completes (R181). -/
theorem exec_install_large {bytes : List Byte} {s : State} (live : s.fault = none) (large : 0x4000 < bytes.length) :
    exec (.install bytes) s = .next ((afterInstallLarge bytes s).answer .ok) := by
  simp only [exec, execInstall, whenLive_live live, installProgram_large large, andThen_done, finish_done]

/-- While FAULT is clear any non-empty sequence is installed, in one of the two ways. -/
theorem exec_install_nonempty {bytes : List Byte} {s : State} (live : s.fault = none) (nonempty : bytes ≠ []) :
    (bytes.length ≤ 0x4000 ∧ exec (.install bytes) s = .next ((afterInstallSmall bytes s).answer .ok)) ∨
    (0x4000 < bytes.length ∧ exec (.install bytes) s = .next ((afterInstallLarge bytes s).answer .ok)) := by
  have pos : bytes.length ≠ 0 := mt List.length_eq_zero_iff.mp nonempty
  rcases Nat.lt_or_ge 0x4000 bytes.length with large | small
  · exact .inr ⟨large, exec_install_large live large⟩
  · exact .inl ⟨small, exec_install_small live pos small⟩

/-! ## What INSTALL does to the fields that are no store -/

@[simp] theorem afterInstallSmall_usel (bytes : List Byte) (s : State) :
    (afterInstallSmall bytes s).usel = .aliased := rfl

@[simp] theorem afterInstallSmall_fault (bytes : List Byte) (s : State) :
    (afterInstallSmall bytes s).fault = s.fault := rfl

@[simp] theorem afterInstallSmall_session (bytes : List Byte) (s : State) :
    (afterInstallSmall bytes s).session = s.session := rfl

@[simp] theorem afterInstallSmall_draws (bytes : List Byte) (s : State) :
    (afterInstallSmall bytes s).draws = s.draws := rfl

@[simp] theorem afterInstallSmall_proxyLog (bytes : List Byte) (s : State) :
    (afterInstallSmall bytes s).proxyLog = s.proxyLog := rfl

@[simp] theorem afterInstallSmall_trace (bytes : List Byte) (s : State) :
    (afterInstallSmall bytes s).trace = s.trace := rfl

@[simp] theorem afterInstallSmall_results (bytes : List Byte) (s : State) :
    (afterInstallSmall bytes s).results = s.results := rfl

@[simp] theorem afterInstallSmall_pending (bytes : List Byte) (s : State) :
    (afterInstallSmall bytes s).pending = s.pending := rfl

@[simp] theorem afterInstallLarge_usel (bytes : List Byte) (s : State) : (afterInstallLarge bytes s).usel = .own := rfl

@[simp] theorem afterInstallLarge_fault (bytes : List Byte) (s : State) :
    (afterInstallLarge bytes s).fault = s.fault := rfl

@[simp] theorem afterInstallLarge_session (bytes : List Byte) (s : State) :
    (afterInstallLarge bytes s).session = s.session := rfl

@[simp] theorem afterInstallLarge_draws (bytes : List Byte) (s : State) :
    (afterInstallLarge bytes s).draws = s.draws := rfl

@[simp] theorem afterInstallLarge_proxyLog (bytes : List Byte) (s : State) :
    (afterInstallLarge bytes s).proxyLog = s.proxyLog := rfl

@[simp] theorem afterInstallLarge_trace (bytes : List Byte) (s : State) :
    (afterInstallLarge bytes s).trace = s.trace := rfl

@[simp] theorem afterInstallLarge_results (bytes : List Byte) (s : State) :
    (afterInstallLarge bytes s).results = s.results := rfl

@[simp] theorem afterInstallLarge_pending (bytes : List Byte) (s : State) :
    (afterInstallLarge bytes s).pending = s.pending := rfl

/-! ## What INSTALL puts in the banks -/

theorem afterInstallSmall_cell_installed {bytes : List Byte} {k : Nat} (s : State) (h : k < bytes.length) :
    (afterInstallSmall bytes s).cell .prgl k = bytes.getD k 0#8 := by
  rw [afterInstallSmall_cell, if_pos ⟨rfl, h⟩]

theorem afterInstallSmall_cell_kept {bytes : List Byte} {S : Store} {o : Nat} (s : State)
    (h : S = .prgl → bytes.length ≤ o) : (afterInstallSmall bytes s).cell S o = s.cell S o := by
  rw [afterInstallSmall_cell, if_neg fun written => Nat.not_lt.mpr (h written.1) written.2]

theorem afterInstallLarge_prgl {bytes : List Byte} {k : Nat} (s : State) (large : 0x4000 < bytes.length)
    (h : k < 0x4000) : (afterInstallLarge bytes s).cell .prgl k = bytes.getD k 0#8 := by
  rw [afterInstallLarge_cell, if_pos ⟨rfl, by omega⟩]

theorem afterInstallLarge_prgu {bytes : List Byte} {k : Nat} (s : State) (h : k < 0x4000)
    (supplied : 0x4000 + k < bytes.length) :
    (afterInstallLarge bytes s).cell .prgu k = bytes.getD (0x4000 + k) 0#8 := by
  rw [afterInstallLarge_cell, if_neg nofun, if_pos ⟨rfl, by omega⟩]

theorem afterInstallLarge_cell_kept {bytes : List Byte} {S : Store} {o : Nat} (s : State)
    (lower : S = .prgl → min bytes.length 0x4000 ≤ o) (upper : S = .prgu → min bytes.length 0x8000 ≤ 0x4000 + o) :
    (afterInstallLarge bytes s).cell S o = s.cell S o := by
  rw [afterInstallLarge_cell, if_neg, if_neg]
  · rintro ⟨bank, written⟩
    have := upper bank
    omega
  · rintro ⟨bank, written⟩
    have := lower bank
    omega

/-- Bytes beyond both banks reach neither (R182). -/
theorem installProgram_take {bytes : List Byte} (long : 0x8000 < bytes.length) (s : State) :
    installProgram (bytes.take 0x8000) s = installProgram bytes s := by
  have large : 0x4000 < (bytes.take 0x8000).length := by rw [List.length_take]; omega
  have lower : (bytes.take 0x8000).take 0x4000 = bytes.take 0x4000 := List.take_take
  have upper : (bytes.take 0x8000).take 0x8000 = bytes.take 0x8000 := List.take_take
  rw [installProgram_large large, installProgram_large (by omega), afterInstallLarge, lower, upper, afterInstallLarge]

/-! ## The router after a small program -/

/-- In the aliased state no address leads to the upper bank. -/
theorem route_aliased_ne_prgu (a : Addr) (k : Nat) : route .aliased a ≠ .cell .prgu k := by
  unfold route
  repeat' split
  all_goals simp [upperBank]

/-- In the aliased state the two program windows lead to the lower bank. -/
theorem route_aliased_windows {k : Nat} (h : k < 0x4000) {a : Addr}
    (ha : a ∈ [BitVec.ofNat 16 (0x8000 + k), BitVec.ofNat 16 (0xC000 + k)]) : route .aliased a = .cell .prgl k := by
  simp only [List.mem_cons, List.not_mem_nil, or_false] at ha
  obtain rfl | rfl := ha
  · exact route_lowerWindow .aliased h
  · exact route_upperWindow .aliased h

/-! ## The statements -/

/-- Settles O31: the bytes go to the lower bank, and both windows lead there. -/
theorem smallInstallAliasesTheUpperWindow : Obligations.SmallInstallAliasesTheUpperWindow := by
  intro s bytes live pos small
  refine ⟨_, exec_install_small live (by omega) small, by simp, by simp, fun k h => ?_, fun k h => ?_, fun k => ?_,
    route_aliased_ne_prgu, fun k h a ha => ?_⟩
  · rw [answer_cell, afterInstallSmall_cell_installed s h]
  · rw [answer_cell, afterInstallSmall_cell_kept s fun _ => h]
  · rw [answer_cell, afterInstallSmall_cell_kept (S := .prgu) s nofun]
  · have routed := route_aliased_windows h ha
    have live' : ((afterInstallSmall bytes s).answer .ok).fault = none := by simpa using live
    refine ⟨routed, exec_rdb_cell live' routed rfl, fun v => ?_⟩
    obtain ⟨u, run, -, husel, -, held, -⟩ := exec_wrb_cell v live' routed
    exact ⟨u, run, husel, held⟩

/-- Settles O32: each bank takes its part of the bytes. -/
theorem largeInstallFillsBothBanks : Obligations.LargeInstallFillsBothBanks := by
  intro s bytes live large
  refine ⟨_, exec_install_large live large, by simp, by simp, fun k h => ?_, fun k h supplied => ?_, fun k beyond => ?_⟩
  · rw [answer_cell, afterInstallLarge_prgl s large h]
  · rw [answer_cell, afterInstallLarge_prgu s h supplied]
  · rw [answer_cell, afterInstallLarge_cell_kept (S := .prgu) s nofun fun _ => by omega]

/-- Settles O33: INSTALL reads the first 32 KB only, and they fill both banks. -/
theorem bytesBeyondBothBanksAreDropped : Obligations.BytesBeyondBothBanksAreDropped := by
  intro s bytes long
  constructor
  · simp only [exec, execInstall, installProgram_take long]
  · intro live
    have large : 0x4000 < bytes.length := by omega
    refine ⟨_, exec_install_large live large, by simpa using live, fun k h => ⟨?_, ?_⟩⟩
    · rw [answer_cell, afterInstallLarge_prgl s large h]
    · rw [answer_cell, afterInstallLarge_prgu s h (by omega)]

/-- Settles O34: a small program stays in the lower bank, a large one in the two banks, below the bytes supplied. -/
theorem installFrame : Obligations.InstallFrame := by
  intro s t bytes nonempty run
  have live : s.fault = none := live_of_next (k := finish _) run
  obtain ⟨small, answered⟩ | ⟨large, answered⟩ := exec_install_nonempty live nonempty
  · obtain rfl := Host.Outcome.next.inj (answered.symm.trans run)
    refine ⟨fun S o outside => ?_, by simp⟩
    rw [answer_cell, afterInstallSmall_cell_kept]
    rintro rfl
    simp only [reduceCtorEq, false_or, true_and, false_and, or_false] at outside
    omega
  · obtain rfl := Host.Outcome.next.inj (answered.symm.trans run)
    refine ⟨fun S o outside => ?_, by simp⟩
    rw [answer_cell, afterInstallLarge_cell_kept]
    · rintro rfl
      simpa using outside
    · rintro rfl
      simpa using outside

/-- Settles O30: nothing to install is a fault raised before any write; anything else is installed. -/
theorem installOfNothingIsAFatalFault : Obligations.InstallOfNothingIsAFatalFault := by
  intro s live
  constructor
  · simp only [exec, execInstall, whenLive_live live, installProgram_empty, andThen_raised, finish_raised, takeFault]
  · intro bytes nonempty
    obtain ⟨-, run⟩ | ⟨-, run⟩ := exec_install_nonempty live nonempty
    · exact ⟨_, run, by simpa using live, by simp⟩
    · exact ⟨_, run, by simpa using live, by simp⟩

end Sys2Proof.Machine
end

section
/-! The statements of `43_store_and_proxy.md`: the primitives of the stores and of the proxy port, each done with its
operands in range and raising its fault outside it. -/

namespace Sys2Proof.Machine

/-! ## The store primitives -/

/-- Settles O29: each primitive is done just when its cells lie below the capacity, and a fault is raised in the state
given. -/
theorem storePrimitivesAreBoundsChecked : Obligations.StorePrimitivesAreBoundsChecked := by
  intro s S o v bytes
  refine ⟨stRead_done, stRead_raised, fun inside => ⟨_, stWrite_done inside, ?_⟩, stWrite_raised,
    fun inside => ⟨_, stBulk_done inside, ?_⟩, stBulk_raised⟩
  · exact ⟨fun S' o' => setCell_cell s S S' o o' v, setCell_usel .., setCell_fault .., setCell_proxyLog ..⟩
  · exact ⟨fun S' o' => insertRun_cell s S S' o o' bytes, setStore_usel .., setStore_fault .., setStore_proxyLog ..⟩

/-! ## The proxy primitives -/

/-- Settles O27: in range the read is done and its answer becomes the result, outside it its fault is taken. -/
theorem proxyReadRecordsAndAnswers : Obligations.ProxyReadRecordsAndAnswers := by
  intro s p live
  simp only [exec, execPxRd, whenLive_live live]
  split
  case isTrue inside =>
    rw [pxRead_done (by omega), andThen_done, finish_done, State.answer]
  case isFalse outside =>
    rw [pxRead_raised (by omega), andThen_raised, finish_raised, takeFault]

/-- Settles O28: in range the write is done, outside it its fault is taken. -/
theorem proxyWriteRecordsTheEvent : Obligations.ProxyWriteRecordsTheEvent := by
  intro s p v live
  simp only [exec, execPxWr, whenLive_live live]
  split
  case isTrue inside =>
    rw [pxWrite_done (by omega), andThen_done, finish_done, State.answer]
  case isFalse outside =>
    rw [pxWrite_raised (by omega), andThen_raised, finish_raised, takeFault]

end Sys2Proof.Machine
end

section
/-! The statements of `60_exceptions.md`: what a latched fault refuses, and what taking a fatal fault changes. -/

namespace Sys2Proof.Machine

/-- Settles O48: each of the five runs only while FAULT is clear. -/
theorem latchedFaultRefusesEveryAccess : Obligations.LatchedFaultRefusesEveryAccess := by
  intro s f a v w bytes latched
  simp only [List.forall_mem_cons, List.not_mem_nil, false_imp_iff, implies_true, and_true]
  have refused (k : Host.Outcome State Fault Refusal) := whenLive_latched latched k
  exact ⟨refused _, refused _, refused _, refused _, refused _⟩

/-- Settles O50: an instruction that completes keeps FAULT, so a fault was taken, and there are two ways to take one. -/
theorem fatalFaultChangesOnlyTheLatch : Obligations.FatalFaultChangesOnlyTheLatch := by
  intro s t i live run faulted
  cases exec_next run with
  | installEmpty _ state =>
    subst state
    exact ⟨rfl, .inl ⟨rfl, rfl⟩⟩
  | pxFault _ p shape _ range state =>
    subst state
    exact ⟨rfl, .inr ⟨p, range, rfl, shape⟩⟩
  | access _ _ _ _ _ state => exact absurd (by simp [state, live]) faulted
  | rdw _ _ _ state => exact absurd (by simp [state, live]) faulted
  | wrw _ _ _ state => exact absurd (by simp [state, live]) faulted
  | installSmall _ _ _ _ state => exact absurd (by simp [state, live]) faulted
  | installLarge _ _ _ state => exact absurd (by simp [state, live]) faulted
  | pxRd _ _ _ _ state => exact absurd (by simp [state, live]) faulted
  | pxWr _ _ _ _ state => exact absurd (by simp [state, live]) faulted
  | pure _ _ state => exact absurd (by simp [state, live]) faulted

end Sys2Proof.Machine
end

section
/-! The statements of `70_reset_and_hazards.md`: the step of a reset, and the two steps of the host's load sequence. -/

namespace Sys2Proof.Machine

/-! ## Reset -/

theorem step_reset (s : State) (rest : List Request) :
    step { s with pending := .reset :: rest } = .next (powerOn { s with pending := rest }) :=
  rfl

/-- Settles O52: the step is the power-on of what is left after the request is taken. -/
theorem resetStartsANewSession : Obligations.ResetStartsANewSession := by
  intro s rest
  exact ⟨_, step_reset s rest, fun S o => powerOn_cell _ S o, powerOn_usel _, powerOn_fault _, powerOn_session _,
    powerOn_proxyLog _, powerOn_trace _, powerOn_results _, powerOn_cfg _, powerOn_draws _, powerOn_pending _⟩

/-! ## The load sequence -/

theorem step_loadCart (s : State) (file : List Byte) (rest : List Request) :
    step { s with pending := .loadCart file :: rest } = loadCart file { s with pending := rest } :=
  rfl

/-- A header that fails ends LOADCART with the answer HDRDEC gives (R268). -/
theorem loadCart_of_error {s : State} {file : List Byte} {e : ParseFailure}
    (dec : headerDecode s.cfg.magic (file.take 16) = .error e) :
    loadCart file s = .next (s.answer (.parseFailure e)) := by
  have hdrdec : execHdrdec (file.take 16) s = .next (s.answer (.parseFailure e)) := exec_hdrdec_of_error dec
  simp only [loadCart, hdrdec, dec]

/-- A record is answered, and INSTALL of the program bytes is issued next (R268). -/
theorem loadCart_of_ok {s : State} {file : List Byte} {r : CartridgeHeader}
    (dec : headerDecode s.cfg.magic (file.take 16) = .ok r) :
    loadCart file s =
      .next (issueFirst (s.answer (.header r)) (.txn (installTxn (programBytes s.cfg r file)))) := by
  have hdrdec : execHdrdec (file.take 16) s = .next (s.answer (.header r)) := exec_hdrdec_of_ok dec
  simp only [loadCart, hdrdec, dec]

theorem step_issueFirst_installTxn (s : State) (bytes : List Byte) :
    step (issueFirst s (.txn (installTxn bytes))) = exec (.install bytes) s :=
  stepRunsTheDecodedInstruction.1 _ _ s.pending _ rfl (decodeInvertsEncode (.install bytes))

/-- Settles O60: HDRDEC decides; after a record the INSTALL issued ahead of the queue is what the next step takes. -/
theorem loadCartDecodesThenInstalls : Obligations.LoadCartDecodesThenInstalls := by
  intro s file rest
  constructor
  · intro e dec
    exact (step_loadCart s file rest).trans (loadCart_of_error dec)
  · intro r dec
    refine ⟨_, (step_loadCart s file rest).trans (loadCart_of_ok dec), fun S o => ?_, rfl, rfl, rfl, ?_⟩
    · rw [issueFirst_cell, answer_cell, with_pending_cell]
    · exact step_issueFirst_installTxn _ _

end Sys2Proof.Machine
end
